-- ==== Sys2Proof/Word.lean ====
section
/-! DEFINITION. The words of PMSEQ: the 16-bit register word, the byte of the store, and the words its interfaces carry
(`30_encoding.md` R49 to R55). Which operation a word selects is decided in Decode.lean alone. -/

namespace Sys2Proof

/-- One byte of the non-volatile store (`20_memory.md` R30). -/
abbrev Byte := BitVec 8

/-- A Duration, a tick counter or a rotation delta: 16 bits (`DUR_W`, `DELTA_W` of `00_scope.md` R3). -/
abbrev Word := BitVec 16

/-- The five formats of `30_encoding.md` R49 to R55. A word's format is the interface it arrives on (R59). -/
inductive Format where
  | t | e | p | s | r
deriving DecidableEq, Repr

/-- One word on one interface, the `<format letter>:<word>` of `30_encoding.md` R60. -/
inductive Frame where
  /-- the tick strobe `tick_stb` (R50) -/
  | t (w : BitVec 1)
  /-- a word on the internal event bus (R51) -/
  | e (w : BitVec 19)
  /-- a poll sample (R52) -/
  | p (w : BitVec 20)
  /-- a store micro-operation (R54) -/
  | s (w : BitVec 3)
  /-- the reset pin `rst_n` (R55) -/
  | r (w : BitVec 1)
deriving DecidableEq, Repr

/-- The format of a word. -/
def Frame.format : Frame → Format
  | .t _ => .t
  | .e _ => .e
  | .p _ => .p
  | .s _ => .s
  | .r _ => .r

/-- The bits of a word as a number, bit 0 least significant. -/
def Frame.bits : Frame → Nat
  | .t w => w.toNat
  | .e w => w.toNat
  | .p w => w.toNat
  | .s w => w.toNat
  | .r w => w.toNat

/-- The input pins of the block in one clock cycle (`30_encoding.md` R49); `true` is 1. -/
structure Pins where
  rstN       : Bool
  tickStb    : Bool
  pollStb    : Bool
  pollSample : BitVec 20
deriving DecidableEq, Repr

/-- One thing the environment presents to the block: a line of a script (`30_encoding.md` R60), or a clock cycle. There is no
constructor for a store word: "the environment cannot issue one" (R54; `44_valuestore.md` R123).
DESIGN CHOICE, log 1: the model reads these from a list in State, one a step. -/
inductive Stimulus where
  /-- a word of format T -/
  | t (w : BitVec 1)
  /-- a word put on the event bus by a direct line (D30) -/
  | e (w : BitVec 19)
  /-- a poll sample -/
  | p (w : BitVec 20)
  /-- a word of format R -/
  | r (w : BitVec 1)
  /-- one clock cycle of all the input pins (`30_encoding.md` R49) -/
  | cycle (pins : Pins)
deriving DecidableEq, Repr

/-- The stimulus that presents a word; none for a store word (R54). -/
def Frame.stimulus? : Frame → Option Stimulus
  | .t w => some (.t w)
  | .e w => some (.e w)
  | .p w => some (.p w)
  | .s _ => none
  | .r w => some (.r w)

/-- The store word a word is, if it is one. -/
def Frame.storeWord? : Frame → Option (BitVec 3)
  | .s w => some w
  | .t _ | .e _ | .p _ | .r _ => none

end Sys2Proof
end

