-- ==== Sys2Proof/Syntax.lean ====
section
/-! DEFINITION. The sixteen operations of PMSEQ, one constructor per row of `opcode_table.json` (`30_encoding.md` R58). -/

namespace Sys2Proof

/-- The operations. `auxN` is bit `aux_n` of a poll sample (`true` = 1 = released, R52), `delta` the signed 16-bit rotation
count (R56), `k` the two slot-index bits of a store micro-operation (R54). The ignored `arg` of event codes 1 to 4 (R51) is
no operand. -/
inductive Instr where
  | tick
  | start
  | stop
  | cycleMode
  | toggleEdit
  | adjust (delta : Word)
  | pollOpen (auxN : Bool) (delta : Word)
  | pollClosed (auxN : Bool) (delta : Word)
  | pollPressed (auxN : Bool) (delta : Word)
  | pollHeld (auxN : Bool) (delta : Word)
  | pollReleased (auxN : Bool) (delta : Word)
  | pollClicked (auxN : Bool) (delta : Word)
  | pollDoubleClicked (auxN : Bool) (delta : Word)
  | load (k : BitVec 2)
  | save (k : BitVec 2)
  | reset
deriving DecidableEq, Repr

end Sys2Proof
end

