-- ==== Sys2Proof/WellFormed.lean ====
section
/-! DEFINITION. Which operations the spec admits. The one operand with a value outside its range is the slot index: "k = 3 is
reserved and never generated" (`30_encoding.md` R54). -/

namespace Sys2Proof

/-- The slot indices 0, 1, 2 (`00_scope.md` R6). -/
def slotInRange (k : BitVec 2) : Bool := k != 3#2

/-- An operation is well formed when its slot index, if it has one, is 0, 1 or 2. -/
def Instr.wellFormed : Instr → Bool
  | .tick => true
  | .start => true
  | .stop => true
  | .cycleMode => true
  | .toggleEdit => true
  | .adjust _ => true
  | .pollOpen _ _ => true
  | .pollClosed _ _ => true
  | .pollPressed _ _ => true
  | .pollHeld _ _ => true
  | .pollReleased _ _ => true
  | .pollClicked _ _ => true
  | .pollDoubleClicked _ _ => true
  | .load k => slotInRange k
  | .save k => slotInRange k
  | .reset => true

end Sys2Proof
end

