-- ==== Sys2Proof/Decode.lean ====
section
/-! DEFINITION. From the words of the interfaces to operations and back (`30_encoding.md` R49 to R59). Decoding is total; a
word that selects nothing is named: no operation, or the reserved slot index. -/

namespace Sys2Proof

/-! ### The fields of a word, and a word from its fields -/

/-- Format E, `E[18:16]` = code, `E[15:0]` = arg (R51). -/
def eWord (code : BitVec 3) (arg : Word) : BitVec 19 := code ++ arg

/-- Format P, `P[19]` = aux_n, `P[18:16]` = btn, `P[15:0]` = delta (R52). -/
def pWord (auxN : Bool) (btn : BitVec 3) (delta : Word) : BitVec 20 := BitVec.ofBool auxN ++ btn ++ delta

/-- Format S, `S[2]` = w, `S[1:0]` = k (R54). -/
def sWord (w : Bool) (k : BitVec 2) : BitVec 3 := BitVec.ofBool w ++ k

/-- `E[18:16]`. -/
def eCode (w : BitVec 19) : BitVec 3 := w.extractLsb' 16 3

/-- `E[15:0]`. -/
def eArg (w : BitVec 19) : Word := w.extractLsb' 0 16

/-- `P[19]`. -/
def pAuxN (w : BitVec 20) : Bool := w.getLsbD 19

/-- `P[18:16]`. -/
def pBtn (w : BitVec 20) : BitVec 3 := w.extractLsb' 16 3

/-- `P[15:0]`. -/
def pDelta (w : BitVec 20) : Word := w.extractLsb' 0 16

/-- `S[2]`. -/
def sW (w : BitVec 3) : Bool := w.getLsbD 2

/-- `S[1:0]`. -/
def sK (w : BitVec 3) : BitVec 2 := w.extractLsb' 0 2

/-! ### Decoding -/

/-- What a word selects. -/
inductive Decoded where
  /-- an operation of the opcode table -/
  | operation (i : Instr)
  /-- no operation: `tick_stb` = 0, `rst_n` = 1, event codes 0, 6 and 7 (R50, R51, R55, R57) -/
  | noOperation
  /-- a store word with the reserved index k = 3 (R54; `93_implementation_defined.md` V5, "refuse") -/
  | reservedSlot
deriving DecidableEq, Repr

/-- Format T (R50). -/
def decodeT (w : BitVec 1) : Decoded := if w = 1#1 then .operation .tick else .noOperation

/-- Format E (R51); the `arg` of codes 1 to 4 is ignored. -/
def decodeE (w : BitVec 19) : Decoded :=
  match eCode w with
  | 1#3 => .operation .start
  | 2#3 => .operation .stop
  | 3#3 => .operation .cycleMode
  | 4#3 => .operation .toggleEdit
  | 5#3 => .operation (.adjust (eArg w))
  | _ => .noOperation

/-- Format P (R52, R53); `btn` = 7 is treated as Open (R57). -/
def decodeP (w : BitVec 20) : Decoded :=
  match pBtn w with
  | 1#3 => .operation (.pollClosed (pAuxN w) (pDelta w))
  | 2#3 => .operation (.pollPressed (pAuxN w) (pDelta w))
  | 3#3 => .operation (.pollHeld (pAuxN w) (pDelta w))
  | 4#3 => .operation (.pollReleased (pAuxN w) (pDelta w))
  | 5#3 => .operation (.pollClicked (pAuxN w) (pDelta w))
  | 6#3 => .operation (.pollDoubleClicked (pAuxN w) (pDelta w))
  | _ => .operation (.pollOpen (pAuxN w) (pDelta w))

/-- Format S (R54). -/
def decodeS (w : BitVec 3) : Decoded :=
  if slotInRange (sK w) then .operation (if sW w then .save (sK w) else .load (sK w)) else .reservedSlot

/-- Format R (R55). -/
def decodeR (w : BitVec 1) : Decoded := if w = 0#1 then .operation .reset else .noOperation

/-- The meaning of a word on the interface it arrives on (R58, R59). -/
def decode : Frame → Decoded
  | .t w => decodeT w
  | .e w => decodeE w
  | .p w => decodeP w
  | .s w => decodeS w
  | .r w => decodeR w

/-! ### Encoding -/

/-- The word of an operation (R58). The ignored `arg` of codes 1 to 4 is driven 0 (R51). -/
def encode : Instr → Frame
  | .tick => .t 1#1
  | .start => .e (eWord 1#3 0#16)
  | .stop => .e (eWord 2#3 0#16)
  | .cycleMode => .e (eWord 3#3 0#16)
  | .toggleEdit => .e (eWord 4#3 0#16)
  | .adjust delta => .e (eWord 5#3 delta)
  | .pollOpen auxN delta => .p (pWord auxN 0#3 delta)
  | .pollClosed auxN delta => .p (pWord auxN 1#3 delta)
  | .pollPressed auxN delta => .p (pWord auxN 2#3 delta)
  | .pollHeld auxN delta => .p (pWord auxN 3#3 delta)
  | .pollReleased auxN delta => .p (pWord auxN 4#3 delta)
  | .pollClicked auxN delta => .p (pWord auxN 5#3 delta)
  | .pollDoubleClicked auxN delta => .p (pWord auxN 6#3 delta)
  | .load k => .s (sWord false k)
  | .save k => .s (sWord true k)
  | .reset => .r 0#1

/-! ### The opcode table -/

/-- A row of the table of R58. -/
structure Row where
  format  : Format
  pattern : Nat
  mask    : Nat
deriving DecidableEq, Repr

/-- The row of an operation: the columns "format" and "match / mask" of R58. -/
def rowOf : Instr → Row
  | .tick => ⟨.t, 0x1, 0x1⟩
  | .start => ⟨.e, 0x10000, 0x70000⟩
  | .stop => ⟨.e, 0x20000, 0x70000⟩
  | .cycleMode => ⟨.e, 0x30000, 0x70000⟩
  | .toggleEdit => ⟨.e, 0x40000, 0x70000⟩
  | .adjust _ => ⟨.e, 0x50000, 0x70000⟩
  | .pollOpen _ _ => ⟨.p, 0x00000, 0x70000⟩
  | .pollClosed _ _ => ⟨.p, 0x10000, 0x70000⟩
  | .pollPressed _ _ => ⟨.p, 0x20000, 0x70000⟩
  | .pollHeld _ _ => ⟨.p, 0x30000, 0x70000⟩
  | .pollReleased _ _ => ⟨.p, 0x40000, 0x70000⟩
  | .pollClicked _ _ => ⟨.p, 0x50000, 0x70000⟩
  | .pollDoubleClicked _ _ => ⟨.p, 0x60000, 0x70000⟩
  | .load _ => ⟨.s, 0x0, 0x4⟩
  | .save _ => ⟨.s, 0x4, 0x4⟩
  | .reset => ⟨.r, 0x0, 0x1⟩

/-- Does a word have a row's pattern? -/
def Row.hits (row : Row) (f : Frame) : Bool := row.format == f.format && (f.bits &&& row.mask) == row.pattern

/-! ### A word of which only the bits are known

The opcode table's patterns are unique within a format only: `0x10000` is START on the event bus and POLL.CLOSED with `aux_n` = 0
on the poll port. A reader who has only the bits and a bit count must choose (log 2): a count that is the exact width of
a format (1, 3, 19, 20) selects it; a count in whole bytes takes R:0, T:1, then S for up to 8 bits, and for more a poll sample when bit
19 is 1 or when the code is none of the event bus's five, else an event word. -/

/-- The frame chosen for `nbits` bits of value `w`; none where no word of that size has the value. -/
def tableFrame (nbits w : Nat) : Option Frame :=
  if nbits ≤ 1 then
    if w = 0 then some (.r 0#1) else if w = 1 then some (.t 1#1) else none
  else if nbits = 3 then
    if w < 2 ^ 3 then some (.s (BitVec.ofNat 3 w)) else none
  else if nbits ≤ 8 then
    if w = 0 then some (.r 0#1) else if w = 1 then some (.t 1#1)
    else if w < 2 ^ 3 then some (.s (BitVec.ofNat 3 w)) else none
  else if nbits = 19 then
    if w < 2 ^ 19 then some (.e (BitVec.ofNat 19 w)) else none
  else if nbits = 20 then
    if w < 2 ^ 20 then some (.p (BitVec.ofNat 20 w)) else none
  else if 0x10000 ≤ w ∧ w < 0x60000 then some (.e (BitVec.ofNat 19 w))
  else if w < 2 ^ 20 then some (.p (BitVec.ofNat 20 w))
  else none

/-- The operation a decoded word selects, if any. -/
def Decoded.instr? : Decoded → Option Instr
  | .operation i => some i
  | .noOperation => none
  | .reservedSlot => none

/-- The operation the decoder reads from `nbits` bits of value `w`, numbered as the opcode table numbers them. -/
def decodeTableWord (nbits w : Nat) : Option Instr :=
  match tableFrame nbits w with
  | some f => (decode f).instr?
  | none => none

end Sys2Proof
end

