-- ==== Sys2Proof/Config.lean ====
section
/-! DEFINITION. The parameters of `00_scope.md` R3. -/

namespace Sys2Proof.Config

/-- `MIN_LENGTH`, the least valid Duration. -/
def minLength : Nat := 1

/-- `MAX_LENGTH`, the greatest valid Duration. -/
def maxLength : Nat := 65535

/-- `DEF_PULSE1`. -/
def defPulse1 : Word := 50#16

/-- `DEF_PULSE2`. -/
def defPulse2 : Word := 200#16

/-- `DEF_IDLE`. -/
def defIdle : Word := 50#16

/-- `NVM_BASE`, the offset of slot 0. -/
def nvmBase : Nat := 0

/-- `NVM_SIZE`, the bytes of store PMSEQ uses. -/
def nvmSize : Nat := 6

/-- `TICK_HZ`: `OPEN` in the spec (D25), nominally 1000. No rule depends on it and no definition uses it (log 17). -/
opaque tickHz : Nat

/-- `AUX_DEBOUNCE_MS`: an obligation on the environment (`43_input_mux.md` R101, D13); no definition uses it (log 17). -/
def auxDebounceMs : Nat := 10

end Sys2Proof.Config
end

