-- ==== Sys2Proof/Machine/State.lean ====
section
/-! DEFINITION. The state of PMSEQ: the eleven registers and the six store bytes of `10_state.md` R10, and the model's own list
of what the environment will present next and the store word placed by hand (log 1, 3). Plain data throughout. -/

namespace Sys2Proof.Machine

/-- The three values of the Mode register (`10_state.md` R15). Code 3 cannot be written down (`30_encoding.md` R48, D22;
log 15). -/
inductive Mode where
  | once | twice | continuous
deriving DecidableEq, Repr

/-- The nine values of the RunState register (`10_state.md` R13). The seven reserved codes cannot be written down
(`30_encoding.md` R48, D22; log 15). -/
inductive RunState where
  | viewOnce | viewTwice | viewContinuous
  | pulseFirst | pulseIdle | pulseSecond
  | editFirst | editSecond | editIdle
deriving DecidableEq, Repr

/-- The two values of OutputLevel, LOW = 0 and HIGH = 1 (`10_state.md` R16). -/
inductive Level where
  | low | high
deriving DecidableEq, Repr

/-- The index k of `00_scope.md` R6: k = 0 `first`, k = 1 `second`, k = 2 `idle`. It names a Duration, its counter, its Pulse
state, its Edit state and its slot. -/
inductive Index where
  | first | second | idle
deriving DecidableEq, Repr

/-- The seven button events of a poll sample (`43_input_mux.md` R100). -/
inductive Button where
  | opened | closed | pressed | held | released | clicked | doubleClicked
deriving DecidableEq, Repr

/-- The five core events the event bus carries from the multiplexer to the sequencer (`30_encoding.md` R51). -/
inductive CoreEvent where
  | start | stop | cycleMode | toggleEdit
  | adjustValue (delta : Word)
deriving DecidableEq, Repr

/-- The non-volatile store: its bytes that differ from what an unlisted byte reads as, by rising offset. Canonical form:
`Memory.wf` in Ops.lean. -/
abbrev Memory := List Host.Cell

/-- The state of the machine between two operations. -/
@[ext]
structure State where
  /-- Duration of the first pulse, `x[0]` (R11) -/
  pulse1        : Word
  /-- Duration of the second pulse, `x[1]` (R11) -/
  pulse2        : Word
  /-- Duration of the gap, `x[2]` (R11) -/
  idle          : Word
  /-- ticks counted in PulseFirst, `c[0]` (R12) -/
  firstCounter  : Word
  /-- ticks counted in PulseSecond, `c[1]` (R12) -/
  secondCounter : Word
  /-- ticks counted in PulseIdle, `c[2]` (R12) -/
  idleCounter   : Word
  /-- RunState, the program counter of this block (R13) -/
  runState      : RunState
  /-- Mode (R15) -/
  mode          : Mode
  /-- OutputLevel (R16) -/
  outputLevel   : Level
  /-- `lp_handled`: the long press has been reported (R20) -/
  lpHandled     : Bool
  /-- `aux_prev`: the auxiliary switch was pressed at the last poll (R21) -/
  auxPrev       : Bool
  /-- NVM, the six store bytes (R22) -/
  nvm           : Memory
  /-- the model's own: what the environment will present, in order (log 1) -/
  inputs        : List Stimulus
  /-- the model's own: a store word placed by hand, none in every run (log 3) -/
  placed        : Option (BitVec 3)
deriving DecidableEq, Repr

/-- Why the machine could stop with a fault: nothing does. "PMSEQ has no exception that transfers control, records a cause or
stops an operation" (`60_exceptions.md` R130), so the type has no constructor (log 16). -/
inductive Fault where
deriving DecidableEq, Repr

/-- Why a word or an operation is refused. -/
inductive Refusal where
  /-- Raised by an arm of `exec` for an operation that has no meaning yet; no arm does. Safe: the machine stops. -/
  | notModelled (mnemonic : String)
  /-- Raised by LOAD and SAVE with k = 3, and by a store word that carries it: "k = 3 is reserved and never generated"
  (`30_encoding.md` R54; `93_implementation_defined.md` V5 "refuse"; log 14). Safe: the machine stops. -/
  | reservedSlot
deriving DecidableEq, Repr

/-- The machine right after RESET (`10_state.md` R25), for the store the model names in log 4 (DESIGN CHOICE): every slot holds its
documented default, so the three LOADs give 50, 200, 50 and write nothing. It is the base state B0 of `95_test_vectors.md`
section 0. What RESET leaves for every other store content is `execReset`. -/
def State.reset : State where
  pulse1        := Config.defPulse1
  pulse2        := Config.defPulse2
  idle          := Config.defIdle
  firstCounter  := 0#16
  secondCounter := 0#16
  idleCounter   := 0#16
  runState      := .viewOnce
  mode          := .once
  outputLevel   := .low
  lpHandled     := false
  auxPrev       := false
  nvm           := []
  inputs        := []
  placed        := none

end Sys2Proof.Machine
end

