-- ==== Sys2Proof/Machine/Operands.lean ====
section
/-! DEFINITION. The pure functions over operands and register values: the index k and what it names, the predicates over
RunState, the order of the Modes, the register codes, the clamp. -/

namespace Sys2Proof.Machine

/-! ### The index k (`00_scope.md` R6) -/

/-- The number k. -/
def Index.num : Index → Nat
  | .first => 0
  | .second => 1
  | .idle => 2

/-- The index two slot bits select; none for the reserved k = 3 (`30_encoding.md` R54). -/
def Index.ofBits? (k : BitVec 2) : Option Index :=
  match k with
  | 0#2 => some .first
  | 1#2 => some .second
  | 2#2 => some .idle
  | _ => none

/-- The default of Duration k, `DEF[k]` (`00_scope.md` R3, R6). -/
def Index.default : Index → Word
  | .first => Config.defPulse1
  | .second => Config.defPulse2
  | .idle => Config.defIdle

/-! ### Predicates over RunState (`00_scope.md` R5) -/

/-- `viewing(s)`. -/
def RunState.viewing : RunState → Bool
  | .viewOnce | .viewTwice | .viewContinuous => true
  | .pulseFirst | .pulseIdle | .pulseSecond => false
  | .editFirst | .editSecond | .editIdle => false

/-- `pulsing(s)`. -/
def RunState.pulsing : RunState → Bool
  | .viewOnce | .viewTwice | .viewContinuous => false
  | .pulseFirst | .pulseIdle | .pulseSecond => true
  | .editFirst | .editSecond | .editIdle => false

/-- `editing(s)`. -/
def RunState.editing : RunState → Bool
  | .viewOnce | .viewTwice | .viewContinuous => false
  | .pulseFirst | .pulseIdle | .pulseSecond => false
  | .editFirst | .editSecond | .editIdle => true

/-- The Duration an Edit state edits: `RunState[1:0]` in an Edit state (`42_edit_events.md` R95). -/
def RunState.editIndex? : RunState → Option Index
  | .viewOnce | .viewTwice | .viewContinuous => none
  | .pulseFirst | .pulseIdle | .pulseSecond => none
  | .editFirst => some .first
  | .editSecond => some .second
  | .editIdle => some .idle

/-! ### Mode (`00_scope.md` R7) -/

/-- `next(m)`. -/
def Mode.next : Mode → Mode
  | .once => .twice
  | .twice => .continuous
  | .continuous => .once

/-- `view(m)`. -/
def Mode.view : Mode → RunState
  | .once => .viewOnce
  | .twice => .viewTwice
  | .continuous => .viewContinuous

/-! ### The codes of the enumerated registers (`30_encoding.md` R45, R46, R48) -/

/-- The 2-bit code of a Mode (R45). -/
def Mode.code : Mode → BitVec 2
  | .once => 0#2
  | .twice => 1#2
  | .continuous => 2#2

/-- The Mode of a code; none for the reserved code 3 (R48). -/
def Mode.ofCode? (c : BitVec 2) : Option Mode :=
  match c with
  | 0#2 => some .once
  | 1#2 => some .twice
  | 2#2 => some .continuous
  | _ => none

/-- The 4-bit code of a RunState (R46). -/
def RunState.code : RunState → BitVec 4
  | .viewOnce => 0b0000#4
  | .viewTwice => 0b0001#4
  | .viewContinuous => 0b0010#4
  | .pulseFirst => 0b0100#4
  | .pulseSecond => 0b0101#4
  | .pulseIdle => 0b0110#4
  | .editFirst => 0b1000#4
  | .editSecond => 0b1001#4
  | .editIdle => 0b1010#4

/-- The RunState of a code; none for the seven reserved codes (R48). -/
def RunState.ofCode? (c : BitVec 4) : Option RunState :=
  match c with
  | 0b0000#4 => some .viewOnce
  | 0b0001#4 => some .viewTwice
  | 0b0010#4 => some .viewContinuous
  | 0b0100#4 => some .pulseFirst
  | 0b0101#4 => some .pulseSecond
  | 0b0110#4 => some .pulseIdle
  | 0b1000#4 => some .editFirst
  | 0b1001#4 => some .editSecond
  | 0b1010#4 => some .editIdle
  | _ => none

/-! ### Arithmetic -/

/-- `clamp(v, lo, hi)` (`00_scope.md` R4). -/
def clamp (v lo hi : Int) : Int := if v < lo then lo else if hi < v then hi else v

/-- The new value of an edited Duration: the sum over the integers, clamped into [1, 65535] (`42_edit_events.md` R95, R96). -/
def adjusted (x delta : Word) : Word :=
  BitVec.ofInt 16 (clamp ((x.toNat : Int) + delta.toInt) Config.minLength Config.maxLength)

end Sys2Proof.Machine
end

