-- ==== Sys2Proof/Machine/Ops.lean ====
section
/-! DEFINITION. The named operations over the store and the registers. PMSEQ has no exception to take and none to return from
(`60_exceptions.md` R130, R143, R144), so no operation for it stands here. -/

namespace Sys2Proof.Machine

/-! ### The store (`20_memory.md` R30 to R36) -/

/-- A byte offset of the store. There is no other address (R30), so none can be written down. -/
abbrev NvmAddr := Fin Config.nvmSize

/-- `v[7:0]`. -/
def lowByte (v : Word) : Byte := v.extractLsb' 0 8

/-- `v[15:8]`. -/
def highByte (v : Word) : Byte := v.extractLsb' 8 8

/-- Slot k's lower offset, `NVM_BASE + 2k` (R31). -/
def lowAddr (k : Index) : NvmAddr := ⟨Config.nvmBase + 2 * k.num, by cases k <;> decide⟩

/-- Slot k's upper offset, `NVM_BASE + 2k + 1` (R31). -/
def highAddr (k : Index) : NvmAddr := ⟨Config.nvmBase + 2 * k.num + 1, by cases k <;> decide⟩

/-- What a byte that no entry lists reads as: the byte of its slot's documented default.
DESIGN CHOICE, log 4: the store's content at the first power-up is not specified (`91_not_in_source.md` N12). -/
def Memory.unlisted (a : Nat) : Byte :=
  if a = (lowAddr .first).val then lowByte Config.defPulse1
  else if a = (highAddr .first).val then highByte Config.defPulse1
  else if a = (lowAddr .second).val then lowByte Config.defPulse2
  else if a = (highAddr .second).val then highByte Config.defPulse2
  else if a = (lowAddr .idle).val then lowByte Config.defIdle
  else highByte Config.defIdle

/-- The canonical form: offsets inside the store, strictly rising, and no entry that an unlisted byte would give anyway. -/
abbrev Memory.wf (m : Memory) : Prop :=
  m.Pairwise (fun c d => c.1 < d.1) ∧ ∀ c ∈ m, c.1 < Config.nvmSize ∧ c.2 ≠ Memory.unlisted c.1

/-- The entry for an offset, if one is listed. -/
def Memory.find : Memory → Nat → Option Byte
  | [], _ => none
  | (x, b) :: m, a => if x = a then some b else Memory.find m a

/-- One byte of the store. -/
def Memory.read (m : Memory) (a : NvmAddr) : Byte := (Memory.find m a).getD (Memory.unlisted a)

/-- Drop the entry for an offset. -/
def Memory.drop : Memory → Nat → Memory
  | [], _ => []
  | (x, b) :: m, a => if x = a then m else (x, b) :: Memory.drop m a

/-- Put an entry in its place by rising offset, over an older one. -/
def Memory.put : Memory → Nat → Byte → Memory
  | [], a, v => [(a, v)]
  | (x, b) :: m, a, v =>
    if a < x then (a, v) :: (x, b) :: m
    else if a = x then (a, v) :: m
    else (x, b) :: Memory.put m a v

/-- Store one byte, keeping the canonical form. -/
def Memory.write (m : Memory) (a : NvmAddr) (v : Byte) : Memory :=
  if v = Memory.unlisted a then Memory.drop m a else Memory.put m a v

/-- `MemRead(2k, 2)` (R33): little-endian (R32). -/
def memRead (m : Memory) (k : Index) : Word := Memory.read m (highAddr k) ++ Memory.read m (lowAddr k)

/-- `MemWrite(2k, 2, v)` (R34), low byte first (R36, D18). -/
def memWrite (m : Memory) (k : Index) (v : Word) : Memory :=
  Memory.write (Memory.write m (lowAddr k) (lowByte v)) (highAddr k) (highByte v)

/-! ### Registers by index (`00_scope.md` section 5) -/

/-- `x[k]`. -/
def State.duration (s : State) : Index → Word
  | .first => s.pulse1
  | .second => s.pulse2
  | .idle => s.idle

/-- `x[k] <- v`. -/
def State.setDuration (s : State) (k : Index) (v : Word) : State :=
  match k with
  | .first => { s with pulse1 := v }
  | .second => { s with pulse2 := v }
  | .idle => { s with idle := v }

/-- `c[k]`. -/
def State.counter (s : State) : Index → Word
  | .first => s.firstCounter
  | .second => s.secondCounter
  | .idle => s.idleCounter

/-- `c[k] <- c[k] + 1` (`40_tick.md` R71). -/
def State.count (s : State) (k : Index) : State :=
  match k with
  | .first => { s with firstCounter := s.firstCounter + 1#16 }
  | .second => { s with secondCounter := s.secondCounter + 1#16 }
  | .idle => { s with idleCounter := s.idleCounter + 1#16 }

/-- All three counters to 0: a sequence (re)starts (`10_state.md` R12). -/
def State.zeroCounters (s : State) : State :=
  { s with firstCounter := 0#16, secondCounter := 0#16, idleCounter := 0#16 }

/-! ### The value store (`44_valuestore.md`) -/

/-- LOAD k (R120): a stored 0 is replaced by the default, which is written back at once. -/
def State.loadSlot (s : State) (k : Index) : State :=
  let v := memRead s.nvm k
  if v = 0#16 then { s.setDuration k k.default with nvm := memWrite s.nvm k k.default }
  else s.setDuration k v

/-- SAVE k (R122). -/
def State.saveSlot (s : State) (k : Index) : State :=
  { s with nvm := memWrite s.nvm k (s.duration k) }

/-- SAVEs in the order listed (`20_memory.md` R39). -/
def State.saveSlots (s : State) : List Index → State
  | [] => s
  | k :: ks => (s.saveSlot k).saveSlots ks

/-! ### Outcomes in sequence -/

/-- Go on from a next state; a stop stops. -/
def andThen (o : Host.Outcome State Fault Refusal) (f : State → Host.Outcome State Fault Refusal) :
    Host.Outcome State Fault Refusal :=
  match o with
  | .next s => f s
  | .fault r => .fault r
  | .refused r => .refused r

end Sys2Proof.Machine
end

