-- ==== Sys2Proof/Machine/Flags.lean ====
section
/-! DEFINITION. The one-bit parts: the comparators of the timers, the two detectors of the multiplexer, the output line. PMSEQ
has no condition codes (`10_state.md` R16). -/

namespace Sys2Proof.Machine

/-- The comparator of timer k: `c[k] >= x[k]`, unsigned, on the counter from before the tick (`40_tick.md` R66, R71). -/
def State.reached (s : State) (k : Index) : Bool := decide (s.duration k ≤ s.counter k)

/-- `lp_handled` after a poll with this button event (`43_input_mux.md` R106, R107): Held sets it, Released clears it, no other
event changes it. It does not look at RunState (D12; log 9). -/
def lpAfter (btn : Button) (lp : Bool) : Bool :=
  match btn with
  | .held => true
  | .released => false
  | .opened | .closed | .pressed | .clicked | .doubleClicked => lp

/-- Does this poll report a long press: the first Held of a hold (R106). -/
def longPress (btn : Button) (lp : Bool) : Bool :=
  match btn with
  | .held => !lp
  | .opened | .closed | .pressed | .released | .clicked | .doubleClicked => false

/-- `pressed` of `43_input_mux.md` R108: the switch is active-low. It is also `aux_prev` after the poll. -/
def auxPressed (auxN : Bool) : Bool := !auxN

/-- `fire` of R108: pressed now and not at the previous poll (D14; log 9). -/
def auxFires (auxN auxPrev : Bool) : Bool := auxPressed auxN && !auxPrev

/-- OutputLevel as the bit on `out_level`, LOW = 0, HIGH = 1 (`10_state.md` R16). -/
def Level.bit : Level → BitVec 1
  | .low => 0#1
  | .high => 1#1

end Sys2Proof.Machine
end

