-- ==== Sys2Proof/Machine/EditEvents.lean ====
section
/-! DEFINITION. TOGGLEEDIT, ADJUST (`42_edit_events.md`). -/

namespace Sys2Proof.Machine

/-- The edit sub-machine (section 1 of the file, R90 to R94): the next RunState and the slots saved on the way, in order;
none where the event is ignored. The three (Edit state, Mode) pairs with no row are ignored (R94 b, D16; log 10). -/
def editMove (rs : RunState) (m : Mode) : Option (RunState × List Index) :=
  match rs, m with
  | .viewOnce, _ | .viewTwice, _ | .viewContinuous, _ => some (.editFirst, [])
  | .editFirst, .once => some (.viewOnce, [.first])
  | .editFirst, .twice | .editFirst, .continuous => some (.editIdle, [])
  | .editIdle, .twice => some (.editSecond, [])
  | .editIdle, .continuous => some (.viewContinuous, [.first, .idle])
  | .editSecond, .twice => some (.viewTwice, [.first, .second, .idle])
  | .editIdle, .once | .editSecond, .once | .editSecond, .continuous => none
  | .pulseFirst, _ | .pulseIdle, _ | .pulseSecond, _ => none

/-- TOGGLEEDIT (R90). -/
def toggleEdit (s : State) : State :=
  match editMove s.runState s.mode with
  | some (rs, slots) => { s.saveSlots slots with runState := rs }
  | none => s

/-- The SAVE micro-operations a TOGGLEEDIT performs in this state, in order (R97). -/
def savesOf (s : State) : List Index :=
  match editMove s.runState s.mode with
  | some (_, slots) => slots
  | none => []

/-- ADJUST (R95). -/
def adjust (delta : Word) (s : State) : State :=
  match s.runState.editIndex? with
  | some k => s.setDuration k (adjusted (s.duration k) delta)
  | none => s

/-- TOGGLEEDIT. -/
def execToggleEdit (s : State) : Host.Outcome State Fault Refusal := .next (toggleEdit s)

/-- ADJUST. -/
def execAdjust (delta : Word) (s : State) : Host.Outcome State Fault Refusal := .next (adjust delta s)

end Sys2Proof.Machine
end

