-- ==== Sys2Proof/Machine/RunEvents.lean ====
section
/-! DEFINITION. START, STOP, CYCLEMODE (`41_run_events.md`). Each carries its own guard and is ignored when it is false (D27; log 10). -/

namespace Sys2Proof.Machine

/-- START (R80). -/
def startSequence (s : State) : State :=
  if s.runState.viewing then { s.zeroCounters with runState := .pulseFirst } else s

/-- STOP (R82). -/
def stopSequence (s : State) : State :=
  if s.runState.pulsing ∧ s.mode = .continuous then { s with runState := .viewContinuous } else s

/-- CYCLEMODE (R84): performed in Edit states too, with no SAVE (R85, D15; log 10). -/
def cycleMode (s : State) : State :=
  if s.runState.pulsing then s
  else { s with mode := s.mode.next, runState := s.mode.next.view }

/-- START. -/
def execStart (s : State) : Host.Outcome State Fault Refusal := .next (startSequence s)

/-- STOP. -/
def execStop (s : State) : Host.Outcome State Fault Refusal := .next (stopSequence s)

/-- CYCLEMODE. -/
def execCycleMode (s : State) : Host.Outcome State Fault Refusal := .next (cycleMode s)

end Sys2Proof.Machine
end

