-- ==== Sys2Proof/Machine/Poll.lean ====
section
/-! DEFINITION. The input event multiplexer and the seven POLL operations (`43_input_mux.md`). Each channel first decides what it
sends on the event bus; "send E" applies the core operation at once (R110). -/

namespace Sys2Proof.Machine

/-- The core operation of an event (`30_encoding.md` R51). -/
def deliver (e : CoreEvent) (s : State) : State :=
  match e with
  | .start => startSequence s
  | .stop => stopSequence s
  | .cycleMode => cycleMode s
  | .toggleEdit => toggleEdit s
  | .adjustValue delta => adjust delta s

/-- Send what a channel decided: an event, or nothing. -/
def send (e : Option CoreEvent) (s : State) : State :=
  match e with
  | some e => deliver e s
  | none => s

/-- `click_event(RunState, Mode)` (R103). -/
def clickEvent (rs : RunState) (m : Mode) : Option CoreEvent :=
  if rs.viewing then some .start
  else if rs.pulsing ∧ m = .continuous then some .stop
  else none

/-! ### What each channel sends -/

/-- The rotation (R109). -/
def rotationEvent (delta : Word) (s : State) : Option CoreEvent :=
  if s.runState.editing ∧ delta.toInt ≠ 0 then some (.adjustValue delta) else none

/-- The button (R104 to R107). -/
def buttonEvent (btn : Button) (s : State) : Option CoreEvent :=
  match btn with
  | .opened | .closed | .pressed | .released => none
  | .held => if longPress btn s.lpHandled then some .cycleMode else none
  | .clicked => clickEvent s.runState s.mode
  | .doubleClicked => some .toggleEdit

/-- The auxiliary switch (R108). -/
def auxEvent (auxN : Bool) (s : State) : Option CoreEvent :=
  if auxFires auxN s.auxPrev ∧ s.runState.editing = false then clickEvent s.runState s.mode else none

/-! ### The three steps of a poll, in sequence (R110, D10; log 8) -/

/-- Step 1. -/
def rotationStep (delta : Word) (s : State) : State := send (rotationEvent delta s) s

/-- Step 2. -/
def buttonStep (btn : Button) (s : State) : State :=
  send (buttonEvent btn s) { s with lpHandled := lpAfter btn s.lpHandled }

/-- Step 3. -/
def auxStep (auxN : Bool) (s : State) : State :=
  send (auxEvent auxN s) { s with auxPrev := auxPressed auxN }

/-- One poll (R110): one atomic operation (D11; log 8). -/
def poll (btn : Button) (auxN : Bool) (delta : Word) (s : State) : State :=
  auxStep auxN (buttonStep btn (rotationStep delta s))

/-- The core events a poll puts on the event bus, in order (the column "sent" of `95_test_vectors.md` section 2.5). -/
def pollSent (btn : Button) (auxN : Bool) (delta : Word) (s : State) : List CoreEvent :=
  (rotationEvent delta s).toList ++ (buttonEvent btn (rotationStep delta s)).toList ++
    (auxEvent auxN (buttonStep btn (rotationStep delta s))).toList

/-! ### The seven operations -/

/-- POLL.OPEN (R111). -/
def execPollOpen (auxN : Bool) (delta : Word) (s : State) : Host.Outcome State Fault Refusal :=
  .next (poll .opened auxN delta s)

/-- POLL.CLOSED (R112). -/
def execPollClosed (auxN : Bool) (delta : Word) (s : State) : Host.Outcome State Fault Refusal :=
  .next (poll .closed auxN delta s)

/-- POLL.PRESSED (R113). -/
def execPollPressed (auxN : Bool) (delta : Word) (s : State) : Host.Outcome State Fault Refusal :=
  .next (poll .pressed auxN delta s)

/-- POLL.HELD (R114). -/
def execPollHeld (auxN : Bool) (delta : Word) (s : State) : Host.Outcome State Fault Refusal :=
  .next (poll .held auxN delta s)

/-- POLL.RELEASED (R115). -/
def execPollReleased (auxN : Bool) (delta : Word) (s : State) : Host.Outcome State Fault Refusal :=
  .next (poll .released auxN delta s)

/-- POLL.CLICKED (R116). -/
def execPollClicked (auxN : Bool) (delta : Word) (s : State) : Host.Outcome State Fault Refusal :=
  .next (poll .clicked auxN delta s)

/-- POLL.DOUBLECLICKED (R117). -/
def execPollDoubleClicked (auxN : Bool) (delta : Word) (s : State) : Host.Outcome State Fault Refusal :=
  .next (poll .doubleClicked auxN delta s)

end Sys2Proof.Machine
end

