-- ==== Sys2Proof/Machine/Reset.lean ====
section
/-! DEFINITION. RESET (`70_reset_and_hazards.md` R156). -/

namespace Sys2Proof.Machine

/-- The register values RESET writes before the LOADs (R156, `10_state.md` R25; log 5). -/
def clearRegisters (s : State) : State :=
  { s.zeroCounters with
    runState := .viewOnce, mode := .once, outputLevel := .low, lpHandled := false, auxPrev := false }

/-- RESET: the registers, then LOAD 0, LOAD 1, LOAD 2. What the environment will present later is not the block's to clear
(log 6). -/
def resetAll (s : State) : State :=
  (((clearRegisters s).loadSlot .first).loadSlot .second).loadSlot .idle

/-- RESET. -/
def execReset (s : State) : Host.Outcome State Fault Refusal := .next (resetAll s)

end Sys2Proof.Machine
end

