-- ==== Sys2Proof/Machine/Tick.lean ====
section
/-! DEFINITION. TICK (`40_tick.md`). The algorithm is PM 4.1's, by C1 and C2 of `90_conflicts.md` (log 12). -/

namespace Sys2Proof.Machine

/-- TICK in PulseFirst (R66). -/
def tickPulseFirst (s : State) : State :=
  if s.reached .first then
    if s.mode = .once then { s with runState := .viewOnce, outputLevel := .low }
    else { s with runState := .pulseIdle, outputLevel := .high }
  else { s.count .first with outputLevel := .high }

/-- The Continuous restart (R68). -/
def restartSequence (s : State) : State :=
  { s.zeroCounters with runState := .pulseFirst, outputLevel := .low }

/-- TICK in PulseIdle (R67). -/
def tickPulseIdle (s : State) : State :=
  if s.reached .idle then
    if s.mode = .continuous then restartSequence s
    else { s with runState := .pulseSecond, outputLevel := .low }
  else { s.count .idle with outputLevel := .low }

/-- TICK in PulseSecond (R69): to ViewTwice whatever Mode is (C8). -/
def tickPulseSecond (s : State) : State :=
  if s.reached .second then { s with runState := .viewTwice, outputLevel := .high }
  else { s.count .second with outputLevel := .high }

/-- TICK selects its case by the RunState it starts in (R65). -/
def tick (s : State) : State :=
  match s.runState with
  | .pulseFirst => tickPulseFirst s
  | .pulseIdle => tickPulseIdle s
  | .pulseSecond => tickPulseSecond s
  | .viewOnce | .viewTwice | .viewContinuous => { s with outputLevel := .low }
  | .editFirst | .editSecond | .editIdle => { s with outputLevel := .low }

/-- TICK. -/
def execTick (s : State) : Host.Outcome State Fault Refusal := .next (tick s)

end Sys2Proof.Machine
end

