-- ==== Sys2Proof/Machine/ValueStore.lean ====
section
/-! DEFINITION. LOAD, SAVE (`44_valuestore.md`) as operations of their own. The reserved index k = 3 is refused
(`30_encoding.md` R54, V5; log 14). -/

namespace Sys2Proof.Machine

/-- LOAD k (R120). -/
def execLoad (k : BitVec 2) (s : State) : Host.Outcome State Fault Refusal :=
  match Index.ofBits? k with
  | some i => .next (s.loadSlot i)
  | none => .refused .reservedSlot

/-- SAVE k (R122). -/
def execSave (k : BitVec 2) (s : State) : Host.Outcome State Fault Refusal :=
  match Index.ofBits? k with
  | some i => .next (s.saveSlot i)
  | none => .refused .reservedSlot

end Sys2Proof.Machine
end

