-- ==== Sys2Proof/Machine/Dispatch.lean ====
section
/-! DEFINITION. One arm per operation (`30_encoding.md` R58). -/

namespace Sys2Proof.Machine

def exec (i : Instr) (s : State) : Host.Outcome State Fault Refusal :=
  match i with
  | .tick => Sys2Proof.Machine.execTick s
  | .start => Sys2Proof.Machine.execStart s
  | .stop => Sys2Proof.Machine.execStop s
  | .cycleMode => Sys2Proof.Machine.execCycleMode s
  | .toggleEdit => Sys2Proof.Machine.execToggleEdit s
  | .adjust delta => Sys2Proof.Machine.execAdjust delta s
  | .pollOpen auxN delta => Sys2Proof.Machine.execPollOpen auxN delta s
  | .pollClosed auxN delta => Sys2Proof.Machine.execPollClosed auxN delta s
  | .pollPressed auxN delta => Sys2Proof.Machine.execPollPressed auxN delta s
  | .pollHeld auxN delta => Sys2Proof.Machine.execPollHeld auxN delta s
  | .pollReleased auxN delta => Sys2Proof.Machine.execPollReleased auxN delta s
  | .pollClicked auxN delta => Sys2Proof.Machine.execPollClicked auxN delta s
  | .pollDoubleClicked auxN delta => Sys2Proof.Machine.execPollDoubleClicked auxN delta s
  | .load k => Sys2Proof.Machine.execLoad k s
  | .save k => Sys2Proof.Machine.execSave k s
  | .reset => Sys2Proof.Machine.execReset s

end Sys2Proof.Machine
end

