-- ==== Sys2Proof/Machine/Clock.lean ====
section
/-! DEFINITION. From what the environment presents to the operations applied: the words of a stimulus, and words and operations
in sequence (`30_encoding.md` R49; `20_memory.md` R38; `60_exceptions.md` R141). -/

namespace Sys2Proof.Machine

/-- The words one clock cycle of the pins applies, in order: RESET alone while `rst_n` is 0, a strobe then is not applied
(`70_reset_and_hazards.md` R156, D21); else TICK before POLL (R141, D9); with no strobe, none (R49). Log 7. -/
def cycleFrames (pins : Pins) : List Frame :=
  if pins.rstN then
    (if pins.tickStb then [.t 1#1] else []) ++ (if pins.pollStb then [.p pins.pollSample] else [])
  else [.r 0#1]

/-- The words of a stimulus. -/
def stimulusFrames : Stimulus → List Frame
  | .t w => [.t w]
  | .e w => [.e w]
  | .p w => [.p w]
  | .r w => [.r w]
  | .cycle pins => cycleFrames pins

/-- Apply what one word selects. A word that is no operation changes nothing (`30_encoding.md` R57); the reserved slot index is
refused. -/
def applyFrame (f : Frame) (s : State) : Host.Outcome State Fault Refusal :=
  match decode f with
  | .operation i => exec i s
  | .noOperation => .next s
  | .reservedSlot => .refused .reservedSlot

/-- Apply words in order, each to the state the one before it left (`20_memory.md` R38). -/
def applyFrames : List Frame → State → Host.Outcome State Fault Refusal
  | [], s => .next s
  | f :: fs, s => andThen (applyFrame f s) (applyFrames fs)

/-- Apply operations in order (`20_memory.md` R38). -/
def execAll : List Instr → State → Host.Outcome State Fault Refusal
  | [], s => .next s
  | i :: is, s => andThen (exec i s) (execAll is)

/-- Take the next stimulus off the list and apply it; an empty list is a clock cycle with no strobe, in which no state changes
(`30_encoding.md` R49; log 1). A stimulus is never a store word, so no LOAD or SAVE is applied but inside RESET and TOGGLEEDIT
(`44_valuestore.md` R123). -/
def applyStimulus (s : State) : Host.Outcome State Fault Refusal :=
  match s.inputs with
  | [] => .next s
  | x :: rest => applyFrames (stimulusFrames x) { s with inputs := rest }

/-- A store word placed by hand is applied alone and is gone; with none placed, as in every run, the environment's next stimulus
is applied (log 3). -/
def applyNext (s : State) : Host.Outcome State Fault Refusal :=
  match s.placed with
  | some w => applyFrame (.s w) { s with placed := none }
  | none => applyStimulus s

/-- The state in which a word is what the next step applies: a store word by hand, any other before everything the environment
will present. -/
def State.present (s : State) (f : Frame) : State :=
  match f.stimulus? with
  | some x => { s with inputs := x :: s.inputs, placed := none }
  | none => { s with placed := f.storeWord? }

end Sys2Proof.Machine
end

