-- ==== Sys2Proof/Machine/Step.lean ====
section
/-! DEFINITION. One step: the next stimulus of the environment, applied (log 1); or a store word placed by hand (log 3). -/

namespace Sys2Proof.Machine

/-- One step of the machine. -/
def step (s : State) : Host.Outcome State Fault Refusal := applyNext s

/-- The state in which the very next step runs the operation of a table word: the word is put at the head of what the
environment presents (log 2), a store word by hand (log 3). A value that is no word of that size places nothing. -/
def State.withFetchWord (s : State) (nbits w : Nat) : State :=
  match tableFrame nbits w with
  | some f => s.present f
  | none => s

end Sys2Proof.Machine
end

