-- ==== Sys2Proof/Machine/Snapshot.lean ====
section
/-! DEFINITION. What can be observed: the snapshot, the output line, the kind of screen (`60_exceptions.md` R150, R151). -/

namespace Sys2Proof.Machine

/-- The five snapshot ports (R150, `30_encoding.md` R49). -/
structure Snapshot where
  mode   : BitVec 2
  state  : BitVec 4
  pulse1 : Word
  pulse2 : Word
  idle   : Word
deriving DecidableEq, Repr

/-- The snapshot: the register values between two operations (R150, D24; log 18). -/
def State.snapshot (s : State) : Snapshot :=
  ⟨s.mode.code, s.runState.code, s.pulse1, s.pulse2, s.idle⟩

/-- `out_level` carries the register at all times (`10_state.md` R16, D29; log 12). -/
def State.outLevel (s : State) : BitVec 1 := s.outputLevel.bit

/-- The kinds of screen (R151): "PULSING", an edit screen with its field, a view screen. -/
inductive Screen where
  | pulsing
  | edit (k : Index)
  | view
deriving DecidableEq, Repr

/-- The kind of screen the snapshot's RunState asks for (R151). -/
def RunState.screen : RunState → Screen
  | .pulseFirst | .pulseIdle | .pulseSecond => .pulsing
  | .editFirst => .edit .first
  | .editSecond => .edit .second
  | .editIdle => .edit .idle
  | .viewOnce | .viewTwice | .viewContinuous => .view

end Sys2Proof.Machine
end

