-- ==== Sys2Proof/Safety.lean ====
section
/-! DEFINITION. The terms the claims use: the invariants the spec states, the guards, the transfer table, and which operations
come from which context. -/

namespace Sys2Proof.Machine

/-! ### Invariants -/

/-- The fifteen (RunState, Mode) pairs of `10_state.md` R17; the other twelve are states of the model too (log 19). -/
def legalPair (rs : RunState) (m : Mode) : Bool :=
  match rs, m with
  | .viewOnce, .once | .viewTwice, .twice | .viewContinuous, .continuous => true
  | .pulseFirst, .once | .pulseFirst, .twice | .pulseFirst, .continuous => true
  | .pulseIdle, .twice | .pulseIdle, .continuous => true
  | .pulseSecond, .twice => true
  | .editFirst, .once | .editFirst, .twice | .editFirst, .continuous => true
  | .editIdle, .twice | .editIdle, .continuous => true
  | .editSecond, .twice => true
  | .viewOnce, .twice | .viewOnce, .continuous | .viewTwice, .once | .viewTwice, .continuous => false
  | .viewContinuous, .once | .viewContinuous, .twice => false
  | .pulseIdle, .once | .pulseSecond, .once | .pulseSecond, .continuous => false
  | .editIdle, .once | .editSecond, .once | .editSecond, .continuous => false

/-- Every Duration is in [1, 65535] (`10_state.md` R18). -/
def State.durationsValid (s : State) : Prop :=
  ∀ k, Config.minLength ≤ (s.duration k).toNat ∧ (s.duration k).toNat ≤ Config.maxLength

/-- While a sequence runs no counter exceeds its Duration (`10_state.md` R19). -/
def State.countersBounded (s : State) : Prop :=
  s.runState.pulsing = true → ∀ k, s.counter k ≤ s.duration k

/-- What every step keeps: R17, R18, and the store's canonical form. -/
structure State.Inv (s : State) : Prop where
  pair      : legalPair s.runState s.mode = true
  durations : s.durationsValid
  store     : Memory.wf s.nvm

/-! ### Guards and transfers -/

/-- The guards of the five core events: the complement of the first five rows of `60_exceptions.md` R133. -/
def accepts (e : CoreEvent) (s : State) : Bool :=
  match e with
  | .start => s.runState.viewing
  | .stop => s.runState.pulsing && s.mode == .continuous
  | .cycleMode => !s.runState.pulsing
  | .toggleEdit =>
    !s.runState.pulsing &&
      !(s.runState == .editIdle && s.mode == .once) &&
      !(s.runState == .editSecond && s.mode == .once) &&
      !(s.runState == .editSecond && s.mode == .continuous)
  | .adjustValue _ => s.runState.editing

/-- The operation of an event on the bus (`30_encoding.md` R51). -/
def CoreEvent.instr : CoreEvent → Instr
  | .start => .start
  | .stop => .stop
  | .cycleMode => .cycleMode
  | .toggleEdit => .toggleEdit
  | .adjustValue delta => .adjust delta

/-- The fourteen rows of `10_state.md` R14, by number: the RunState and Mode after an operation, none in every case not in the
table. POLL makes transfers through these operations only; RESET is not in the table. -/
def transferRow (i : Instr) (s : State) : Option (RunState × Mode) :=
  match i with
  | .start => if s.runState.viewing then some (.pulseFirst, s.mode) else none                          -- 1
  | .tick =>
    if s.runState = .pulseFirst ∧ s.pulse1 ≤ s.firstCounter ∧ s.mode = .once then some (.viewOnce, s.mode)   -- 2
    else if s.runState = .pulseFirst ∧ s.pulse1 ≤ s.firstCounter then some (.pulseIdle, s.mode)              -- 3
    else if s.runState = .pulseIdle ∧ s.idle ≤ s.idleCounter ∧ s.mode = .continuous then
      some (.pulseFirst, s.mode)                                                                             -- 4
    else if s.runState = .pulseIdle ∧ s.idle ≤ s.idleCounter then some (.pulseSecond, s.mode)                -- 5
    else if s.runState = .pulseSecond ∧ s.pulse2 ≤ s.secondCounter then some (.viewTwice, s.mode)            -- 6
    else none
  | .stop => if s.runState.pulsing ∧ s.mode = .continuous then some (.viewContinuous, s.mode) else none      -- 7
  | .cycleMode =>
    if s.runState.viewing ∨ s.runState.editing then some (s.mode.next.view, s.mode.next) else none           -- 8
  | .toggleEdit =>
    if s.runState.viewing then some (.editFirst, s.mode)                                                     -- 9
    else if s.runState = .editFirst ∧ s.mode = .once then some (.viewOnce, s.mode)                           -- 10
    else if s.runState = .editFirst then some (.editIdle, s.mode)                                            -- 11
    else if s.runState = .editIdle ∧ s.mode = .twice then some (.editSecond, s.mode)                         -- 12
    else if s.runState = .editIdle ∧ s.mode = .continuous then some (.viewContinuous, s.mode)                -- 13
    else if s.runState = .editSecond ∧ s.mode = .twice then some (.viewTwice, s.mode)                        -- 14
    else none
  | .adjust _ => none
  | .pollOpen _ _ | .pollClosed _ _ | .pollPressed _ _ | .pollHeld _ _ => none
  | .pollReleased _ _ | .pollClicked _ _ | .pollDoubleClicked _ _ => none
  | .load _ | .save _ => none
  | .reset => none

/-- The slots a TOGGLEEDIT in this state writes (the table of `42_edit_events.md` section 1, R97): Once `pulse1`; Continuous `pulse1`,
`idle`; Twice all three; and none but on the confirming transition. -/
def confirmedSlots (rs : RunState) (m : Mode) : List Index :=
  if rs = .editFirst ∧ m = .once then [.first]
  else if rs = .editIdle ∧ m = .continuous then [.first, .idle]
  else if rs = .editSecond ∧ m = .twice then [.first, .second, .idle]
  else []

/-- Is a byte one of a slot's two (`20_memory.md` R31)? -/
def inSlots (a : NvmAddr) (slots : List Index) : Prop := ∃ k ∈ slots, a = lowAddr k ∨ a = highAddr k

/-! ### Contexts -/

/-- The POLL operation of a button event (`30_encoding.md` R53). -/
def pollInstr (btn : Button) (auxN : Bool) (delta : Word) : Instr :=
  match btn with
  | .opened => .pollOpen auxN delta
  | .closed => .pollClosed auxN delta
  | .pressed => .pollPressed auxN delta
  | .held => .pollHeld auxN delta
  | .released => .pollReleased auxN delta
  | .clicked => .pollClicked auxN delta
  | .doubleClicked => .pollDoubleClicked auxN delta

/-- Is an operation one of the seven POLL operations? -/
def isPoll : Instr → Bool
  | .pollOpen _ _ | .pollClosed _ _ | .pollPressed _ _ | .pollHeld _ _ => true
  | .pollReleased _ _ | .pollClicked _ _ | .pollDoubleClicked _ _ => true
  | .tick | .start | .stop | .cycleMode | .toggleEdit | .adjust _ | .load _ | .save _ | .reset => false

/-- Is an operation one of the five core events of `41_run_events.md` and `42_edit_events.md`? -/
def isCore : Instr → Bool
  | .start | .stop | .cycleMode | .toggleEdit | .adjust _ => true
  | .tick | .load _ | .save _ | .reset => false
  | .pollOpen _ _ | .pollClosed _ _ | .pollPressed _ _ | .pollHeld _ _ => false
  | .pollReleased _ _ | .pollClicked _ _ | .pollDoubleClicked _ _ => false

/-- Is an operation one of the two store micro-operations, which "the environment cannot issue" (`30_encoding.md` R54)? -/
def isMicro : Instr → Bool
  | .load _ | .save _ => true
  | .tick | .start | .stop | .cycleMode | .toggleEdit | .adjust _ | .reset => false
  | .pollOpen _ _ | .pollClosed _ _ | .pollPressed _ _ | .pollHeld _ _ => false
  | .pollReleased _ _ | .pollClicked _ _ | .pollDoubleClicked _ _ => false

end Sys2Proof.Machine
end

