-- ==== Sys2Proof/Certificates/Slice0/Obligations.lean ====
section
/-! DEFINITION. The statements for the provers. "Next t" is `Host.Outcome.next t`. Where a statement rests on a decision the spec
marks as its own (`92_eei_decisions.md`) or on a choice of the model, its docstring names the decision or the log entry. -/

open Sys2Proof Sys2Proof.Machine

/-! ### Encodings -/

/-- Decoding the encoding of a well-formed operation gives it back, with every operand at every value (`30_encoding.md` R50 to R56,
R58). The codes are the spec's decisions D1, D5 to D8 (log 13). -/
def Obligations.DecodeOfEncodeIsIdentity : Prop :=
  ∀ i : Instr, i.wellFormed = true → decode (encode i) = .operation i

/-- A word that decodes to an operation is that operation's encoding, but for what the spec says is ignored: the `arg` of event
codes 1 to 4, and `btn` = 7, which is Open (`30_encoding.md` R51, R57; D5, D6; log 13). So no other bit of a word is dropped. -/
def Obligations.EncodeOfDecodeIsTheWord : Prop :=
  ∀ (f : Frame) (i : Instr), decode f = .operation i →
    i.wellFormed = true ∧
      match f with
      | .e w => encode i = if eCode w = 5#3 then f else .e (eWord (eCode w) 0#16)
      | .p w => encode i = if pBtn w = 7#3 then .p (pWord (pAuxN w) 0#3 (pDelta w)) else f
      | .t _ | .s _ | .r _ => encode i = f

/-- "A pattern is unique within its format" (`30_encoding.md` R58): every word that decodes to an operation has the pattern of that
operation's row and of no other row, except that `btn` = 7 has no row (R57). D1, D5 to D8 (log 13). -/
def Obligations.WordHasItsRowAlone : Prop :=
  ∀ (f : Frame) (i j : Instr), decode f = .operation i →
    if f.format = .p ∧ (f.bits / 65536) % 8 = 7 then (rowOf j).hits f = false
    else ((rowOf j).hits f = true ↔ rowOf j = rowOf i)

/-- Words written out from R58 and R61: TICK; ADJUST -100; `POLL DoubleClicked d=5`; AUXDOWN; LOAD 1; SAVE 2; RESET; CYCLEMODE.
The codes are the spec's decisions D1, D5 to D8, the names AUXDOWN and `POLL` its decision D23 (log 13). -/
def Obligations.SpecWordsDecode : Prop :=
  decode (.t 0b1#1) = .operation .tick ∧
  decode (.e 0b1011111111110011100#19) = .operation (.adjust (BitVec.ofInt 16 (-100))) ∧
  decode (.p 0b11100000000000000101#20) = .operation (.pollDoubleClicked true 5#16) ∧
  decode (.p 0b00000000000000000000#20) = .operation (.pollOpen false 0#16) ∧
  decode (.s 0b001#3) = .operation (.load 1#2) ∧
  decode (.s 0b110#3) = .operation (.save 2#2) ∧
  decode (.r 0b0#1) = .operation .reset ∧
  decode (.e 0b0110000000000000000#19) = .operation .cycleMode

/-- No encoding traps (`30_encoding.md` R57; the codes are D5, D6): `btn` = 7 does what Open does with the same `delta` and `aux_n`,
event codes 0, 6 and 7 change nothing, the `arg` of codes 1 to 4 is ignored, and no well-formed operation is encoded as a
store word with k = 3. -/
def Obligations.ReservedWordsDoNotTrap : Prop :=
  (∀ auxN delta s, applyFrame (.p (pWord auxN 7#3 delta)) s = exec (.pollOpen auxN delta) s) ∧
  (∀ arg s, applyFrame (.e (eWord 0#3 arg)) s = .next s ∧ applyFrame (.e (eWord 6#3 arg)) s = .next s ∧
    applyFrame (.e (eWord 7#3 arg)) s = .next s) ∧
  (∀ arg s, applyFrame (.e (eWord 1#3 arg)) s = exec .start s ∧ applyFrame (.e (eWord 2#3 arg)) s = exec .stop s ∧
    applyFrame (.e (eWord 3#3 arg)) s = exec .cycleMode s ∧ applyFrame (.e (eWord 4#3 arg)) s = exec .toggleEdit s) ∧
  (∀ i w, i.wellFormed = true → encode i ≠ .s (sWord w 3#2))

/-- The register codes (`30_encoding.md` R45, R46, R48; D2, D3, D22): the codes of the three Modes and of the nine RunStates, each
valid code is one value's, `next` of a Mode is + 1 modulo 3 on codes, the reserved codes are
Mode 3 and the RunState codes with sub 3 or class 3, and the class bits are the three predicates, of which exactly one
holds (`00_scope.md` R5). -/
def Obligations.RegisterCodes : Prop :=
  (Mode.code .once = 0#2 ∧ Mode.code .twice = 1#2 ∧ Mode.code .continuous = 2#2) ∧
  (RunState.code .viewOnce = 0#4 ∧ RunState.code .viewTwice = 1#4 ∧ RunState.code .viewContinuous = 2#4 ∧
    RunState.code .pulseFirst = 4#4 ∧ RunState.code .pulseSecond = 5#4 ∧ RunState.code .pulseIdle = 6#4 ∧
    RunState.code .editFirst = 8#4 ∧ RunState.code .editSecond = 9#4 ∧ RunState.code .editIdle = 10#4) ∧
  (∀ m : Mode, m.next.code.toNat = (m.code.toNat + 1) % 3) ∧
  (∀ c m, Mode.ofCode? c = some m ↔ m.code = c) ∧
  (∀ c, Mode.ofCode? c = none ↔ c = 3#2) ∧
  (∀ c rs, RunState.ofCode? c = some rs ↔ rs.code = c) ∧
  (∀ c, RunState.ofCode? c = none ↔ c.extractLsb' 0 2 = 3#2 ∨ c.extractLsb' 2 2 = 3#2) ∧
  (∀ rs : RunState, (rs.viewing = true ↔ rs.code.extractLsb' 2 2 = 0#2) ∧
    (rs.pulsing = true ↔ rs.code.extractLsb' 2 2 = 1#2) ∧ (rs.editing = true ↔ rs.code.extractLsb' 2 2 = 2#2)) ∧
  (∀ m : Mode, m.view.code = 0#2 ++ m.code)

/-! ### The step -/

/-- When the next stimulus presents a word that decodes to an operation, a step is that operation on the state with the stimulus
taken off the list; a store word placed by hand comes first, alone, and is gone. The list and the placed word are the model's
(log 1, 3). -/
def Obligations.StepRunsDecodedWord : Prop :=
  (∀ (s : State) (f : Frame) (x : Stimulus) (rest : List Stimulus) (i : Instr),
    s.placed = none → f.stimulus? = some x → s.inputs = x :: rest → decode f = .operation i →
      step s = exec i { s with inputs := rest }) ∧
  (∀ (s : State) (w : BitVec 3) (i : Instr), s.placed = some w → decode (.s w) = .operation i →
    step s = exec i { s with placed := none })

/-- A word that is no operation changes nothing else, and with nothing to present the state stays (`30_encoding.md` R49, R50, R51,
R55, R57). The list and the placed word are the model's (log 1, 3). -/
def Obligations.StepOfNoOperation : Prop :=
  (∀ (s : State) (f : Frame) (x : Stimulus) (rest : List Stimulus),
    s.placed = none → f.stimulus? = some x → s.inputs = x :: rest → decode f = .noOperation →
      step s = .next { s with inputs := rest }) ∧
  (∀ s : State, s.placed = none → s.inputs = [] → step s = .next s)

/-- One clock cycle of the pins (`30_encoding.md` R49): RESET alone while `rst_n` is 0 (D21); else TICK, or POLL, or with both
strobes TICK followed by POLL on the state the TICK left (`60_exceptions.md` R141, decision D9), or nothing. Log 1, 3, 7. -/
def Obligations.StepAppliesClockCycle : Prop :=
  ∀ (s : State) (pins : Pins) (rest : List Stimulus) (i : Instr), s.placed = none → s.inputs = .cycle pins :: rest →
    decode (.p pins.pollSample) = .operation i →
    (pins.rstN = false → step s = exec .reset { s with inputs := rest }) ∧
    (pins.rstN = true → pins.tickStb = true → pins.pollStb = false → step s = exec .tick { s with inputs := rest }) ∧
    (pins.rstN = true → pins.tickStb = false → pins.pollStb = true → step s = exec i { s with inputs := rest }) ∧
    (pins.rstN = true → pins.tickStb = false → pins.pollStb = false → step s = .next { s with inputs := rest }) ∧
    (pins.rstN = true → pins.tickStb = true → pins.pollStb = true →
      ∃ u, exec .tick { s with inputs := rest } = .next u ∧ step s = exec i u)

/-- The operations of a run form one total order and are applied one after another (`20_memory.md` R38): the run over the words of a
list of operations the environment can issue, which are all but LOAD and SAVE (`30_encoding.md` R54), is that list applied in
order, whatever else is presented later. The list and the placed word are the model's (log 1, 3). -/
def Obligations.RunAppliesOperationsInOrder : Prop :=
  ∀ (is : List Instr) (s : State) (rest : List Stimulus), s.placed = none → (∀ i ∈ is, isMicro i = false) →
    Host.Core.run Sys2Proof.core is.length
        { s with inputs := is.filterMap (fun i => (encode i).stimulus?) ++ rest } =
      execAll is { s with inputs := rest }

/-- An operation neither reads nor writes what will be presented later, by the environment or by hand: on states that differ there
alone it does the same. The two fields are the model's (log 1, 3). -/
def Obligations.OperationsIgnoreLaterInputs : Prop :=
  ∀ (i : Instr) (s t : State) (later : List Stimulus) (hand : Option (BitVec 3)), exec i s = .next t →
    t.inputs = s.inputs ∧ t.placed = s.placed ∧
      exec i { s with inputs := later, placed := hand } = .next { t with inputs := later, placed := hand }

/-- "Every operation is a total function of the state and its operand" (`60_exceptions.md` R130): every well-formed operation, in
every state, answers a next state. -/
def Obligations.WellFormedOperationsComplete : Prop :=
  ∀ (i : Instr) (s : State), i.wellFormed = true → ∃ t, exec i s = .next t

/-- The reserved slot index is refused, as an operation and as a word (`30_encoding.md` R54 "k = 3 is reserved and never
generated"; `93_implementation_defined.md` V5 "refuse"; log 14; the placed word is log 3). -/
def Obligations.ReservedSlotIsRefused : Prop :=
  (∀ s, exec (.load 3#2) s = .refused .reservedSlot ∧ exec (.save 3#2) s = .refused .reservedSlot) ∧
  (∀ (s : State) (w : Bool), s.placed = some (sWord w 3#2) → step s = .refused .reservedSlot)

/-- PMSEQ never halts, and no LOAD or SAVE is an operation of its own in a run (`10_state.md` R13 "never destroyed,
only transitioned"; `60_exceptions.md` R130; `30_encoding.md` R54; `44_valuestore.md` R123 "nowhere else"). With no store word
placed by hand, as at reset (log 1, 3), every step answers a next state, which again has none placed and is what operations
other than LOAD and SAVE give on the rest of the stimuli; the store is unchanged when none of them is a RESET, a TOGGLEEDIT or a
POLL.DOUBLECLICKED. So a run of any length goes on. -/
def Obligations.EveryRunGoesOn : Prop :=
  (∀ s : State, s.placed = none → ∃ t is, step s = .next t ∧ t.placed = none ∧
    execAll is { s with inputs := s.inputs.tail } = .next t ∧ (∀ i ∈ is, isMicro i = false) ∧
    ((∀ i ∈ is, i ≠ .reset ∧ i ≠ .toggleEdit ∧ ∀ auxN delta, i ≠ .pollDoubleClicked auxN delta) → t.nvm = s.nvm)) ∧
  (∀ (n : Nat) (s : State), s.placed = none → ∃ t, Host.Core.run Sys2Proof.core n s = .next t ∧ t.placed = none) ∧
  State.reset.placed = none

/-! ### TICK -/

/-- TICK in PulseFirst (`40_tick.md` R66). -/
def Obligations.TickInPulseFirst : Prop :=
  ∀ s : State, s.runState = .pulseFirst →
    (s.pulse1 ≤ s.firstCounter → s.mode = .once →
      exec .tick s = .next { s with runState := .viewOnce, outputLevel := .low }) ∧
    (s.pulse1 ≤ s.firstCounter → s.mode ≠ .once →
      exec .tick s = .next { s with runState := .pulseIdle, outputLevel := .high }) ∧
    (s.firstCounter < s.pulse1 →
      exec .tick s = .next { s with firstCounter := s.firstCounter + 1#16, outputLevel := .high })

/-- TICK in PulseIdle and the Continuous restart (`40_tick.md` R67, R68). -/
def Obligations.TickInPulseIdle : Prop :=
  ∀ s : State, s.runState = .pulseIdle →
    (s.idle ≤ s.idleCounter → s.mode = .continuous →
      exec .tick s = .next { s with firstCounter := 0#16, idleCounter := 0#16, secondCounter := 0#16,
                                    runState := .pulseFirst, outputLevel := .low }) ∧
    (s.idle ≤ s.idleCounter → s.mode ≠ .continuous →
      exec .tick s = .next { s with runState := .pulseSecond, outputLevel := .low }) ∧
    (s.idleCounter < s.idle →
      exec .tick s = .next { s with idleCounter := s.idleCounter + 1#16, outputLevel := .low })

/-- TICK in PulseSecond, whatever Mode is; the line goes LOW on the first TICK in ViewTwice (`40_tick.md` R69). -/
def Obligations.TickInPulseSecond : Prop :=
  ∀ s : State, s.runState = .pulseSecond →
    (s.pulse2 ≤ s.secondCounter →
      exec .tick s = .next { s with runState := .viewTwice, outputLevel := .high } ∧
      execAll [.tick, .tick] s = .next { s with runState := .viewTwice, outputLevel := .low }) ∧
    (s.secondCounter < s.pulse2 →
      exec .tick s = .next { s with secondCounter := s.secondCounter + 1#16, outputLevel := .high })

/-- TICK in a View or Edit state writes LOW and nothing else, and any number of them equals one (`40_tick.md` R65, last case and
corner cases). -/
def Obligations.TicksOutsideASequence : Prop :=
  ∀ (s : State) (n : Nat), s.runState.pulsing = false →
    execAll (List.replicate (n + 1) .tick) s = .next { s with outputLevel := .low }

/-- "What TICK never touches: Mode, `pulse1`, `pulse2`, `idle`, `lp_handled`, `aux_prev` and NVM" (`40_tick.md` R70), whatever the
state. -/
def Obligations.TickNeverTouches : Prop :=
  ∀ s : State, ∃ t, exec .tick s = .next t ∧ t.mode = s.mode ∧ t.pulse1 = s.pulse1 ∧ t.pulse2 = s.pulse2 ∧
    t.idle = s.idle ∧ t.lpHandled = s.lpHandled ∧ t.auxPrev = s.auxPrev ∧ t.nvm = s.nvm

/-- The counters under TICK (`10_state.md` R12; `40_tick.md` R71): a counter moves only when its own Pulse state is active and it is
below its Duration, and then it is one more, as a number, with no wrap; or all three are zeroed by the Continuous restart. -/
def Obligations.TickCountsTheActiveCounter : Prop :=
  ∀ s t : State, exec .tick s = .next t →
    (s.runState = .pulseIdle ∧ s.mode = .continuous ∧ s.idle ≤ s.idleCounter ∧ ∀ k, t.counter k = 0#16) ∨
    ∀ k, t.counter k = s.counter k ∨
      (s.runState = (match k with | .first => .pulseFirst | .second => .pulseSecond | .idle => .pulseIdle) ∧
        t.runState = s.runState ∧ (s.counter k).toNat < (s.duration k).toNat ∧
        (t.counter k).toNat = (s.counter k).toNat + 1 ∧ (t.counter k).toNat ≤ 65535 ∧
        ∀ j, j ≠ k → t.counter j = s.counter j)

/-- The level a TICK writes (`10_state.md` R16): HIGH when it starts in PulseFirst or PulseSecond, except the completion tick of
PulseFirst in Mode Once; LOW in every other case. -/
def Obligations.TickWritesTheLevel : Prop :=
  ∀ s t : State, exec .tick s = .next t →
    (t.outputLevel = .high ↔
      (s.runState = .pulseFirst ∧ ¬ (s.pulse1 ≤ s.firstCounter ∧ s.mode = .once)) ∨ s.runState = .pulseSecond) ∧
    (t.outputLevel = .low ∨ t.outputLevel = .high)

/-- A whole Once sequence (`40_tick.md` R72, which the spec derives): the state after START and t + 1 TICKs. The line is HIGH for exactly
`pulse1` ticks. -/
def Obligations.OnceSequence : Prop :=
  ∀ (s : State) (t : Nat), s.runState.viewing = true → s.mode = .once →
    execAll (.start :: List.replicate (t + 1) .tick) s =
      .next (if t < s.pulse1.toNat then
          { s with runState := .pulseFirst, outputLevel := .high,
                   firstCounter := BitVec.ofNat 16 (t + 1), secondCounter := 0#16, idleCounter := 0#16 }
        else
          { s with runState := .viewOnce, outputLevel := .low,
                   firstCounter := s.pulse1, secondCounter := 0#16, idleCounter := 0#16 })

/-- A whole Twice sequence (`40_tick.md` R73, which the spec derives; C1): the state after START and t + 1 TICKs, with A = p1,
B = p1 + g + 1, C = p1 + g + p2 + 2. -/
def Obligations.TwiceSequence : Prop :=
  ∀ (s : State) (t A B C : Nat), s.runState.viewing = true → s.mode = .twice →
    A = s.pulse1.toNat → B = s.pulse1.toNat + s.idle.toNat + 1 →
    C = s.pulse1.toNat + s.idle.toNat + s.pulse2.toNat + 2 →
    execAll (.start :: List.replicate (t + 1) .tick) s =
      .next (if t < A then
          { s with runState := .pulseFirst, outputLevel := .high,
                   firstCounter := BitVec.ofNat 16 (t + 1), secondCounter := 0#16, idleCounter := 0#16 }
        else if t < B then
          { s with runState := .pulseIdle, outputLevel := if t = A then .high else .low,
                   firstCounter := s.pulse1, secondCounter := 0#16, idleCounter := BitVec.ofNat 16 (t - A) }
        else if t < C then
          { s with runState := .pulseSecond, outputLevel := if t = B then .low else .high,
                   firstCounter := s.pulse1, secondCounter := BitVec.ofNat 16 (t - B), idleCounter := s.idle }
        else
          { s with runState := .viewTwice, outputLevel := if t = C then .high else .low,
                   firstCounter := s.pulse1, secondCounter := s.pulse2, idleCounter := s.idle })

/-- A Continuous sequence (`40_tick.md` R74, which the spec derives): n whole periods of L = p1 + g + 2 TICKs and then j + 1 more,
for every n. PulseSecond is never entered and `secondCounter` stays 0. -/
def Obligations.ContinuousSequence : Prop :=
  ∀ (s : State) (n j L : Nat), s.runState.viewing = true → s.mode = .continuous →
    L = s.pulse1.toNat + s.idle.toNat + 2 → j < L →
    execAll (.start :: List.replicate (n * L + j + 1) .tick) s =
      .next (if j < s.pulse1.toNat then
          { s with runState := .pulseFirst, outputLevel := .high,
                   firstCounter := BitVec.ofNat 16 (j + 1), secondCounter := 0#16, idleCounter := 0#16 }
        else if j < L - 1 then
          { s with runState := .pulseIdle, outputLevel := if j = s.pulse1.toNat then .high else .low,
                   firstCounter := s.pulse1, secondCounter := 0#16,
                   idleCounter := BitVec.ofNat 16 (j - s.pulse1.toNat) }
        else
          { s with runState := .pulseFirst, outputLevel := .low,
                   firstCounter := 0#16, secondCounter := 0#16, idleCounter := 0#16 })

/-- A Once or Twice sequence cannot be stopped or delayed (`41_run_events.md` R83): whatever polls and core events come between, it
takes exactly `pulse1` + 1, or `pulse1` + `idle` + `pulse2` + 3, TICKs from START to the View state. -/
def Obligations.SequenceLengthUnderEvents : Prop :=
  ∀ (s t : State) (ops : List Instr) (n : Nat), s.runState.viewing = true →
    (s.mode = .once ∧ n = s.pulse1.toNat + 1 ∨
      s.mode = .twice ∧ n = s.pulse1.toNat + s.idle.toNat + s.pulse2.toNat + 3) →
    (∀ i ∈ ops, i = .tick ∨ isCore i = true ∨ isPoll i = true) →
    (ops.count .tick < n → execAll (.start :: ops) s = .next t → t.runState.pulsing = true ∧ t.mode = s.mode) ∧
    (ops.count .tick + 1 = n → execAll (.start :: (ops ++ [.tick])) s = .next t →
      t.runState = s.mode.view ∧ t.mode = s.mode)

/-! ### Run events -/

/-- START (`41_run_events.md` R80 but for its encoding): from a View state zero the counters and enter PulseFirst; else ignored. -/
def Obligations.StartResult : Prop :=
  ∀ s : State,
    (s.runState.viewing = true →
      exec .start s = .next { s with firstCounter := 0#16, secondCounter := 0#16, idleCounter := 0#16,
                                     runState := .pulseFirst }) ∧
    (s.runState.viewing = false → exec .start s = .next s)

/-- STOP (`41_run_events.md` R82 but for its encoding): writes nothing but RunState, and only while pulsing in Mode Continuous. -/
def Obligations.StopResult : Prop :=
  ∀ s : State,
    (s.runState.pulsing = true → s.mode = .continuous →
      exec .stop s = .next { s with runState := .viewContinuous }) ∧
    (¬ (s.runState.pulsing = true ∧ s.mode = .continuous) → exec .stop s = .next s)

/-- CYCLEMODE (`41_run_events.md` R84 but for its encoding; in Edit states R85, decision D15, log 10: no SAVE, the Durations keep
what ADJUST left). -/
def Obligations.CycleModeResult : Prop :=
  ∀ s : State,
    (s.runState.pulsing = false →
      exec .cycleMode s = .next { s with mode := s.mode.next, runState := s.mode.next.view }) ∧
    (s.runState.pulsing = true → exec .cycleMode s = .next s)

/-- The order of the Modes and the View state of each (`00_scope.md` R7), and that three CYCLEMODEs from a View state that matches
Mode return to the same state (`41_run_events.md` R84, corner case). -/
def Obligations.ModeOrderIsCyclic : Prop :=
  Mode.next .once = .twice ∧ Mode.next .twice = .continuous ∧ Mode.next .continuous = .once ∧
  Mode.view .once = .viewOnce ∧ Mode.view .twice = .viewTwice ∧ Mode.view .continuous = .viewContinuous ∧
  ∀ s : State, s.runState = s.mode.view → execAll [.cycleMode, .cycleMode, .cycleMode] s = .next s

/-- During a sequence (`41_run_events.md` R86, which the spec derives): START, CYCLEMODE, TOGGLEEDIT and ADJUST are ignored, STOP too in
Modes Once and Twice, and neither a core event, a poll nor a TICK changes Mode or a Duration. -/
def Obligations.SequenceShutsOutEvents : Prop :=
  ∀ s : State, s.runState.pulsing = true →
    (∀ i, isCore i = true → (i ≠ .stop ∨ s.mode ≠ .continuous) → exec i s = .next s) ∧
    (∀ i t, (isCore i = true ∨ isPoll i = true ∨ i = .tick) → exec i s = .next t →
      t.mode = s.mode ∧ ∀ k, t.duration k = s.duration k) ∧
    (∀ i t, isPoll i = true → s.mode ≠ .continuous → exec i s = .next t →
      t = { s with lpHandled := t.lpHandled, auxPrev := t.auxPrev })

/-! ### Edit events -/

/-- TOGGLEEDIT (`42_edit_events.md` section 1, R90 to R94; the three pairs with no row are decision D16, log 10): the RunState it leads
to, and nothing but RunState and the store changes. -/
def Obligations.ToggleEditTransitions : Prop :=
  ∀ s : State, ∃ t, exec .toggleEdit s = .next t ∧ t = { s with runState := t.runState, nvm := t.nvm } ∧
    t.runState =
      (match s.runState, s.mode with
        | .viewOnce, _ | .viewTwice, _ | .viewContinuous, _ => RunState.editFirst
        | .editFirst, .once => .viewOnce
        | .editFirst, _ => .editIdle
        | .editIdle, .twice => .editSecond
        | .editIdle, .continuous => .viewContinuous
        | .editSecond, .twice => .viewTwice
        | rs, _ => rs)

/-- What TOGGLEEDIT stores (`42_edit_events.md` R91 to R93, R97; unconditional writes are decision D18): the slots written then equal
their Duration registers, every byte outside them reads as before, and on every other transition the store is unchanged. -/
def Obligations.ToggleEditStores : Prop :=
  ∀ s t : State, Memory.wf s.nvm → exec .toggleEdit s = .next t →
    (∀ k ∈ confirmedSlots s.runState s.mode, memRead t.nvm k = s.duration k) ∧
    (∀ a, ¬ inSlots a (confirmedSlots s.runState s.mode) → Memory.read t.nvm a = Memory.read s.nvm a) ∧
    (confirmedSlots s.runState s.mode = [] → t.nvm = s.nvm)

/-- Which SAVEs a TOGGLEEDIT performs, in order, each once, and that its effect on the store is theirs
(`42_edit_events.md` R91 to R93, R97; order is decision D18). -/
def Obligations.ToggleEditIsItsSaves : Prop :=
  ∀ s : State, ∃ t u, exec .toggleEdit s = .next t ∧
    execAll ((confirmedSlots s.runState s.mode).map
      fun k => .save (match k with | .first => 0#2 | .second => 1#2 | .idle => 2#2)) s = .next u ∧
    t.nvm = u.nvm ∧ savesOf s = confirmedSlots s.runState s.mode

/-- A whole edit session of each Mode with a turn in every Edit state (`42_edit_events.md` R98, which the spec derives; R95, R97): it
returns to the View state it started in, every Duration the Mode edits is adjusted by its own turn and stored, and the rest of
the state is as before. -/
def Obligations.EditSessionStoresItsTurns : Prop :=
  ∀ (s : State) (d1 d2 d3 : Word), Memory.wf s.nvm →
    (s.runState = .viewOnce → s.mode = .once →
      ∃ t, execAll [.toggleEdit, .adjust d1, .toggleEdit] s = .next t ∧
        t = { s with pulse1 := adjusted s.pulse1 d1, nvm := t.nvm } ∧
        memRead t.nvm .first = t.pulse1 ∧ memRead t.nvm .second = memRead s.nvm .second ∧
        memRead t.nvm .idle = memRead s.nvm .idle) ∧
    (s.runState = .viewContinuous → s.mode = .continuous →
      ∃ t, execAll [.toggleEdit, .adjust d1, .toggleEdit, .adjust d2, .toggleEdit] s = .next t ∧
        t = { s with pulse1 := adjusted s.pulse1 d1, idle := adjusted s.idle d2, nvm := t.nvm } ∧
        memRead t.nvm .first = t.pulse1 ∧ memRead t.nvm .second = memRead s.nvm .second ∧
        memRead t.nvm .idle = t.idle) ∧
    (s.runState = .viewTwice → s.mode = .twice →
      ∃ t, execAll [.toggleEdit, .adjust d1, .toggleEdit, .adjust d2, .toggleEdit, .adjust d3, .toggleEdit] s =
          .next t ∧
        t = { s with pulse1 := adjusted s.pulse1 d1, idle := adjusted s.idle d2, pulse2 := adjusted s.pulse2 d3,
                     nvm := t.nvm } ∧
        ∀ k, memRead t.nvm k = t.duration k)

/-- ADJUST (`42_edit_events.md` R95 but for its encoding): the active Edit state's Duration takes the clamped sum and nothing else
changes; outside the Edit states it is ignored. -/
def Obligations.AdjustResult : Prop :=
  ∀ (s : State) (delta : Word),
    (s.runState = .editFirst → exec (.adjust delta) s =
      .next { s with pulse1 := BitVec.ofInt 16 (clamp (s.pulse1.toNat + delta.toInt) 1 65535) }) ∧
    (s.runState = .editSecond → exec (.adjust delta) s =
      .next { s with pulse2 := BitVec.ofInt 16 (clamp (s.pulse2.toNat + delta.toInt) 1 65535) }) ∧
    (s.runState = .editIdle → exec (.adjust delta) s =
      .next { s with idle := BitVec.ofInt 16 (clamp (s.idle.toNat + delta.toInt) 1 65535) }) ∧
    (s.runState.editing = false → exec (.adjust delta) s = .next s)

/-- The arithmetic of ADJUST (`42_edit_events.md` R96): the sum is formed over the integers and lies in [-32768, 98302]; the result, as a
number, is the sum when that is in [1, 65535], 1 below and 65535 above; so it is never 0 and nothing wraps, and clamping it again (a
turn by 0) changes nothing. -/
def Obligations.AdjustArithmetic : Prop :=
  ∀ (s : State) (delta : Word) (k : Index), s.runState.editIndex? = some k →
    ∃ t, exec (.adjust delta) s = .next t ∧
      -32768 ≤ ((s.duration k).toNat : Int) + delta.toInt ∧ ((s.duration k).toNat : Int) + delta.toInt ≤ 98302 ∧
      (((s.duration k).toNat : Int) + delta.toInt < 1 → (t.duration k).toNat = 1) ∧
      (65535 < ((s.duration k).toNat : Int) + delta.toInt → (t.duration k).toNat = 65535) ∧
      (1 ≤ ((s.duration k).toNat : Int) + delta.toInt → ((s.duration k).toNat : Int) + delta.toInt ≤ 65535 →
        ((t.duration k).toNat : Int) = ((s.duration k).toNat : Int) + delta.toInt) ∧
      (∀ j, j ≠ k → t.duration j = s.duration j) ∧ exec (.adjust 0#16) t = .next t

/-- The clamp and PM's first testable property (`00_scope.md` R4). -/
def Obligations.ClampProperties : Prop :=
  ∀ v lo hi : Int, lo ≤ hi →
    (v < lo → clamp v lo hi = lo) ∧ (hi < v → clamp v lo hi = hi) ∧ (lo ≤ v → v ≤ hi → clamp v lo hi = v) ∧
    clamp (clamp v lo hi) lo hi = clamp v lo hi ∧ lo ≤ clamp v lo hi ∧ clamp v lo hi ≤ hi

/-! ### The multiplexer -/

/-- The click resolution (`43_input_mux.md` R103): which event, and that the event sent always takes effect, START entering
PulseFirst and STOP ViewContinuous; a click that resolves to none is lost: POLL.CLICKED with no turn and the
switch released then changes nothing but `aux_prev`, to 0 (R108, R110; decision D14, log 9). -/
def Obligations.ClickResolution : Prop :=
  ∀ s : State,
    (s.runState.viewing = true → clickEvent s.runState s.mode = some .start ∧
      ∃ t, exec .start s = .next t ∧ t.runState = .pulseFirst) ∧
    (s.runState.pulsing = true → s.mode = .continuous → clickEvent s.runState s.mode = some .stop ∧
      ∃ t, exec .stop s = .next t ∧ t.runState = .viewContinuous) ∧
    (s.runState.pulsing = true → s.mode ≠ .continuous → clickEvent s.runState s.mode = none) ∧
    (s.runState.editing = true → clickEvent s.runState s.mode = none) ∧
    (clickEvent s.runState s.mode = none →
      exec (.pollClicked true 0#16) s = .next { s with auxPrev := false })

/-- One poll of any of the seven kinds (`43_input_mux.md` R104 to R110, R111 to R117): rotation, button, auxiliary switch, in this
order, each on the state the one before it left, each applying at most one core operation. The order is decision D10, the
detectors D12 and D14, the filter D28 (log 8, 9). -/
def Obligations.PollAppliesItsChannels : Prop :=
  ∀ (btn : Button) (auxN : Bool) (delta : Word) (s : State), ∃ s1 s2 s3,
    (if s.runState.editing = true ∧ delta.toInt ≠ 0 then exec (.adjust delta) s = .next s1 else s1 = s) ∧
    (match btn with
      | .opened | .closed | .pressed => s2 = s1
      | .held =>
        if s1.lpHandled = false then exec .cycleMode { s1 with lpHandled := true } = .next s2 else s2 = s1
      | .released => s2 = { s1 with lpHandled := false }
      | .clicked =>
        if s1.runState.viewing = true then exec .start s1 = .next s2
        else if s1.runState.pulsing = true ∧ s1.mode = .continuous then exec .stop s1 = .next s2
        else s2 = s1
      | .doubleClicked => exec .toggleEdit s1 = .next s2) ∧
    (if auxN = false ∧ s2.auxPrev = false then
        if s2.runState.viewing = true then exec .start { s2 with auxPrev := true } = .next s3
        else if s2.runState.pulsing = true ∧ s2.mode = .continuous then
          exec .stop { s2 with auxPrev := true } = .next s3
        else s3 = { s2 with auxPrev := true }
      else s3 = { s2 with auxPrev := !auxN }) ∧
    exec (pollInstr btn auxN delta) s = .next s3

/-- Open, Closed and Pressed are no button event (`43_input_mux.md` R111 to R113): the three operations do the same, and with the
switch released and no turn they change at most `aux_prev`, to 0 (R108; decision D14, log 9). -/
def Obligations.QuietPolls : Prop :=
  ∀ (s : State) (auxN : Bool) (delta : Word),
    exec (.pollClosed auxN delta) s = exec (.pollOpen auxN delta) s ∧
    exec (.pollPressed auxN delta) s = exec (.pollOpen auxN delta) s ∧
    exec (.pollOpen true 0#16) s = .next { s with auxPrev := false }

/-- The multiplexer sends no event its target ignores, except CycleMode from a first Held and ToggleEdit from a DoubleClicked, each
in a Pulse state, and at most one event a channel (`43_input_mux.md` R119, which the spec derives; on the reachable pairs of
R17, the premise). It rests on decisions D10, D12, D14, D28 (log 8, 9). -/
def Obligations.MultiplexerSendsWhatIsAccepted : Prop :=
  ∀ (btn : Button) (auxN : Bool) (delta : Word) (s : State), legalPair s.runState s.mode = true →
    (∀ e, rotationEvent delta s = some e → e = .adjustValue delta ∧ accepts e s = true) ∧
    (∀ e, buttonEvent btn s = some e → accepts e s = true ∨
      s.runState.pulsing = true ∧ (btn = .held ∧ e = .cycleMode ∨ btn = .doubleClicked ∧ e = .toggleEdit)) ∧
    (∀ e, auxEvent auxN s = some e → accepts e s = true ∧ (e = .start ∨ e = .stop)) ∧
    (pollSent btn auxN delta s).length ≤ 3

/-- The state after a poll is that of the events it sent, applied in order, but for the two detector bits, which core events
neither read nor write (`43_input_mux.md` R106 to R108, R110). The order is decision D10 (log 8), the detectors are D12 and D14
(log 9). -/
def Obligations.PollIsTheEventsItSends : Prop :=
  ∀ (btn : Button) (auxN : Bool) (delta : Word) (s : State), ∃ t u,
    exec (pollInstr btn auxN delta) s = .next t ∧
    execAll ((pollSent btn auxN delta s).map CoreEvent.instr) s = .next u ∧
    t = { u with lpHandled := (match btn with | .held => true | .released => false | _ => s.lpHandled),
                 auxPrev := !auxN }

/-- A long press fires once per press-and-hold (`43_input_mux.md` R106, R107; D12, log 9): while `lp_handled` is set, no run of ticks
and polls without a POLL.RELEASED changes Mode or clears it. -/
def Obligations.LongPressFiresOncePerHold : Prop :=
  ∀ (ops : List Instr) (s t : State), s.lpHandled = true →
    (∀ i ∈ ops, i = .tick ∨ isPoll i = true ∧ ∀ auxN delta, i ≠ .pollReleased auxN delta) →
    execAll ops s = .next t → t.mode = s.mode ∧ t.lpHandled = true

/-- A held auxiliary switch sends nothing further (`43_input_mux.md` R108; D14, log 9): with `aux_prev` set, any number of Open polls
that find it still pressed leave the state as it was outside the Edit states. -/
def Obligations.AuxiliaryFiresOncePerPress : Prop :=
  ∀ (n : Nat) (s : State) (delta : Word), s.auxPrev = true → s.runState.editing = false →
    execAll (List.replicate n (.pollOpen false delta)) s = .next s

/-- A switch that is down at the first poll after RESET starts a Once sequence (`70_reset_and_hazards.md` R177, R159, which the spec
derives from D14), and a button still held gives CycleMode (R159). -/
def Obligations.InputsAtFirstPollAfterReset : Prop :=
  ∀ s : State, ∃ r, exec .reset s = .next r ∧
    execAll [.reset, .pollOpen false 0#16] s = .next { r with runState := .pulseFirst, auxPrev := true } ∧
    execAll [.reset, .pollHeld true 0#16] s =
      .next { r with runState := .viewTwice, mode := .twice, lpHandled := true }

/-- What a poll stores (`43_input_mux.md` R110, R117; `42_edit_events.md` R97): only POLL.DOUBLECLICKED stores, what the TOGGLEEDIT of
its step 2 stores, in the state the rotation left (the order is decision D10, log 8; the writes are unconditional by D18, log 11);
every other byte reads as before. -/
def Obligations.PollStores : Prop :=
  ∀ (btn : Button) (auxN : Bool) (delta : Word) (s t : State), Memory.wf s.nvm →
    exec (pollInstr btn auxN delta) s = .next t →
    (btn ≠ .doubleClicked → t.nvm = s.nvm) ∧
    (∀ k ∈ confirmedSlots s.runState s.mode, btn = .doubleClicked →
      memRead t.nvm k = (rotationStep delta s).duration k) ∧
    (∀ a, ¬ inSlots a (confirmedSlots s.runState s.mode) → Memory.read t.nvm a = Memory.read s.nvm a)

/-! ### The value store -/

/-- `MemRead` and `MemWrite` at a slot (`20_memory.md` R31 to R34): the value read is the low byte plus 256 times the high; a write
sets the low byte at offset 2k and the high byte at 2k + 1, is read back whole, leaves every other byte, keeps the canonical
form, and writing the same value twice leaves the same content as once. -/
def Obligations.StoreReadsWhatWasWritten : Prop :=
  ∀ (m : Memory) (k : Index) (v : Word), Memory.wf m →
    (lowAddr k).val = 2 * k.num ∧ (highAddr k).val = 2 * k.num + 1 ∧
    (memRead m k).toNat = (Memory.read m (lowAddr k)).toNat + 256 * (Memory.read m (highAddr k)).toNat ∧
    Memory.read (memWrite m k v) (lowAddr k) = v.extractLsb' 0 8 ∧
    Memory.read (memWrite m k v) (highAddr k) = v.extractLsb' 8 8 ∧
    memRead (memWrite m k v) k = v ∧
    (∀ a, a ≠ lowAddr k → a ≠ highAddr k → Memory.read (memWrite m k v) a = Memory.read m a) ∧
    Memory.wf (memWrite m k v) ∧ memWrite (memWrite m k v) k v = memWrite m k v

/-- LOAD k (`44_valuestore.md` R120 but for its encoding): a stored non-zero value is taken as it is and the store is unchanged; a
stored 0 becomes the default, which is written back. Nothing else changes. -/
def Obligations.LoadResult : Prop :=
  ∀ s : State,
    (exec (.load 0#2) s = .next (if memRead s.nvm .first = 0#16 then
        { s with pulse1 := 50#16, nvm := memWrite s.nvm .first 50#16 } else { s with pulse1 := memRead s.nvm .first })) ∧
    (exec (.load 1#2) s = .next (if memRead s.nvm .second = 0#16 then
        { s with pulse2 := 200#16, nvm := memWrite s.nvm .second 200#16 }
        else { s with pulse2 := memRead s.nvm .second })) ∧
    (exec (.load 2#2) s = .next (if memRead s.nvm .idle = 0#16 then
        { s with idle := 50#16, nvm := memWrite s.nvm .idle 50#16 } else { s with idle := memRead s.nvm .idle }))

/-- "The only stored value LOAD rejects is 0" (`44_valuestore.md` R121): every other value is taken, 0xFFFF among them; each slot is
judged alone, so every byte outside slot k reads as before and the other Durations stay; afterwards the register is in
[1, 65535] and slot k equals it. -/
def Obligations.LoadRejectsOnlyZero : Prop :=
  ∀ (s t : State) (b : BitVec 2) (k : Index), Memory.wf s.nvm → Index.ofBits? b = some k → exec (.load b) s = .next t →
    (memRead s.nvm k ≠ 0#16 → t.duration k = memRead s.nvm k ∧ t.nvm = s.nvm) ∧
    (memRead s.nvm k = 0#16 → t.duration k = k.default) ∧
    1 ≤ (t.duration k).toNat ∧ (t.duration k).toNat ≤ 65535 ∧ memRead t.nvm k = t.duration k ∧
    (∀ j, j ≠ k → t.duration j = s.duration j ∧ memRead t.nvm j = memRead s.nvm j) ∧
    (∀ a, a ≠ lowAddr k → a ≠ highAddr k → Memory.read t.nvm a = Memory.read s.nvm a)

/-- SAVE k (`44_valuestore.md` R122 but for its encoding): the whole Duration register to slot k, low byte at the lower offset; no
register changes and every byte outside the slot reads as before. -/
def Obligations.SaveResult : Prop :=
  ∀ (s : State) (b : BitVec 2) (k : Index), Memory.wf s.nvm → Index.ofBits? b = some k →
    ∃ t, exec (.save b) s = .next t ∧ t = { s with nvm := t.nvm } ∧
      Memory.read t.nvm (lowAddr k) = (s.duration k).extractLsb' 0 8 ∧
      Memory.read t.nvm (highAddr k) = (s.duration k).extractLsb' 8 8 ∧
      (∀ a, a ≠ lowAddr k → a ≠ highAddr k → Memory.read t.nvm a = Memory.read s.nvm a)

/-- "A value written by a SAVE is what the next LOAD of that slot reads, across any number of resets, if no other agent wrote the
medium in between" (`20_memory.md` R39): after a SAVE of a valid Duration and any number of RESETs, a LOAD gives it, and a RESET
gives it. The premise is the model's store: a write always succeeds, the medium keeps what is written, and no other agent
writes it (`20_memory.md` R37, decision D19; `93_implementation_defined.md` U3; log 11, unsafe). -/
def Obligations.SavedValueSurvivesResets : Prop :=
  ∀ (s t : State) (b : BitVec 2) (k : Index) (n : Nat), Memory.wf s.nvm → Index.ofBits? b = some k →
    s.duration k ≠ 0#16 →
    (execAll (.save b :: (List.replicate n .reset ++ [.load b])) s = .next t → t.duration k = s.duration k) ∧
    (execAll (.save b :: List.replicate (n + 1) .reset) s = .next t → t.duration k = s.duration k)

/-! ### RESET -/

/-- RESET (`70_reset_and_hazards.md` R156, `10_state.md` R25): ViewOnce, Once, LOW, counters and detectors 0 (the last five the spec's
decisions D20, D12, D14; log 5); each Duration is the stored value, or 50, 200, 50 where that is 0; each slot then holds its
Duration, and a byte of a slot that held a non-zero value is unchanged. After the eight register writes it is LOAD 0, LOAD 1,
LOAD 2, in that order (`44_valuestore.md` R123). The list of later stimuli stays (log 6). -/
def Obligations.ResetResult : Prop :=
  ∀ s : State, Memory.wf s.nvm → ∃ t, exec .reset s = .next t ∧
    t = { s with
      runState := .viewOnce, mode := .once, outputLevel := .low, lpHandled := false, auxPrev := false,
      firstCounter := 0#16, secondCounter := 0#16, idleCounter := 0#16,
      pulse1 := if memRead s.nvm .first = 0#16 then 50#16 else memRead s.nvm .first,
      pulse2 := if memRead s.nvm .second = 0#16 then 200#16 else memRead s.nvm .second,
      idle := if memRead s.nvm .idle = 0#16 then 50#16 else memRead s.nvm .idle,
      nvm := t.nvm } ∧
    execAll [.load 0#2, .load 1#2, .load 2#2] (clearRegisters s) = .next t ∧
    (∀ k, memRead t.nvm k = t.duration k) ∧
    (∀ k, memRead s.nvm k ≠ 0#16 → Memory.read t.nvm (lowAddr k) = Memory.read s.nvm (lowAddr k) ∧
      Memory.read t.nvm (highAddr k) = Memory.read s.nvm (highAddr k))

/-- Across a reset only NVM survives (`60_exceptions.md` R152): two states with the same store, before the same later stimuli (the
model's fields, log 1, 3, 6), reset to the same state. -/
def Obligations.OnlyTheStoreSurvivesReset : Prop :=
  ∀ s u : State, s.nvm = u.nvm → s.inputs = u.inputs → s.placed = u.placed → exec .reset s = exec .reset u

/-! ### Invariants and whole-machine rules -/

/-- Every step keeps the reachable pairs (`10_state.md` R17), the valid Durations (R18), which the spec derives, and the store's
canonical form, whatever the environment presents and whatever store word is placed by hand (log 1, 3). -/
def Obligations.StepKeepsInvariant : Prop :=
  ∀ s t : State, s.Inv → step s = .next t → t.Inv

/-- RESET establishes the invariant whatever the state was and whatever the store holds (`10_state.md` R17, R18, R25), and the model's
own reset state (log 4) has it. -/
def Obligations.ResetEstablishesInvariant : Prop :=
  (∀ s t : State, Memory.wf s.nvm → exec .reset s = .next t → t.Inv) ∧ State.reset.Inv

/-- While a sequence runs no counter exceeds its Duration (`10_state.md` R19, which the spec derives): kept by every step with no
store word placed by hand, which the environment cannot do (`30_encoding.md` R54; log 1, 3), and no step places one. -/
def Obligations.StepKeepsCountersBounded : Prop :=
  ∀ s t : State, s.placed = none → s.countersBounded → step s = .next t → t.countersBounded ∧ t.placed = none

/-- The complete list of RunState transfers (`10_state.md` R14): each of the fourteen rows is made by its operation, and in every case
not in the table the operation leaves RunState, and Mode, unchanged. -/
def Obligations.RunStateTransfers : Prop :=
  ∀ (i : Instr) (s t : State), isPoll i = false → i ≠ .reset → exec i s = .next t →
    (t.runState, t.mode) = (transferRow i s).getD (s.runState, s.mode)

/-- Error class (c) (`60_exceptions.md` R133, the rows of the five core events): an operation whose guard is false leaves the whole
state unchanged, and one whose guard holds does not, but for an ADJUST whose clamped sum is the old value. The guards of the
pairs with no row are decision D16, CYCLEMODE in Edit states is D15 (log 10). -/
def Obligations.IgnoredExactlyWhenNotAccepted : Prop :=
  ∀ (e : CoreEvent) (s : State),
    (accepts e s = false → exec e.instr s = .next s) ∧
    (accepts e s = true → (∀ delta, e ≠ .adjustValue delta) → exec e.instr s ≠ .next s) ∧
    (∀ delta, e = .adjustValue delta → accepts e s = true → ∃ k, s.runState.editIndex? = some k ∧
      (exec e.instr s = .next s ↔ clamp ((s.duration k).toNat + delta.toInt) 1 65535 = (s.duration k).toNat))

/-- Who writes what (`60_exceptions.md` R145): the poll context (core events and polls) never writes OutputLevel and writes counters
only to zero all three; Mode is written only by CYCLEMODE, so by POLL.HELD; Durations only by ADJUST, so by a poll; the detectors
only by polls, `lp_handled` only by POLL.HELD and POLL.RELEASED; the store only by TOGGLEEDIT, so by POLL.DOUBLECLICKED. -/
def Obligations.WhoWritesWhat : Prop :=
  ∀ (i : Instr) (s t : State), (isCore i = true ∨ isPoll i = true) → exec i s = .next t →
    t.outputLevel = s.outputLevel ∧
    ((∀ k, t.counter k = s.counter k) ∨ (∀ k, t.counter k = 0#16)) ∧
    (t.mode ≠ s.mode → i = .cycleMode ∨ ∃ auxN delta, i = .pollHeld auxN delta) ∧
    ((∃ k, t.duration k ≠ s.duration k) → (∃ delta, i = .adjust delta) ∨ isPoll i = true) ∧
    (t.lpHandled ≠ s.lpHandled → ∃ auxN delta, i = .pollHeld auxN delta ∨ i = .pollReleased auxN delta) ∧
    (t.auxPrev ≠ s.auxPrev → isPoll i = true) ∧
    (t.nvm ≠ s.nvm → i = .toggleEdit ∨ ∃ auxN delta, i = .pollDoubleClicked auxN delta) ∧
    t.inputs = s.inputs ∧ t.placed = s.placed

/-- What can be observed (`60_exceptions.md` R150, R151; `10_state.md` R16): the snapshot's five ports are the codes of Mode and
RunState and the values of `pulse1`, `pulse2`, `idle`, each on its own port; equal snapshots mean those five registers equal and
nothing else, so the counters and the detectors are not visible; `out_level` is 1 for HIGH; the kind of screen follows RunState.
The codes are decisions D2, D3, the ports D24, D29. -/
def Obligations.WhatCanBeObserved : Prop :=
  (∀ s : State,
    s.snapshot.mode = (match s.mode with | .once => 0#2 | .twice => 1#2 | .continuous => 2#2) ∧
    s.snapshot.state = (match s.runState with
      | .viewOnce => 0#4 | .viewTwice => 1#4 | .viewContinuous => 2#4
      | .pulseFirst => 4#4 | .pulseSecond => 5#4 | .pulseIdle => 6#4
      | .editFirst => 8#4 | .editSecond => 9#4 | .editIdle => 10#4) ∧
    s.snapshot.pulse1 = s.pulse1 ∧ s.snapshot.pulse2 = s.pulse2 ∧ s.snapshot.idle = s.idle) ∧
  (∀ s u : State, s.snapshot = u.snapshot ↔
    s.mode = u.mode ∧ s.runState = u.runState ∧ s.pulse1 = u.pulse1 ∧ s.pulse2 = u.pulse2 ∧ s.idle = u.idle) ∧
  (∀ s : State, s.outLevel = 1#1 ↔ s.outputLevel = .high) ∧
  (∀ rs : RunState, (rs.screen = .pulsing ↔ rs.pulsing = true) ∧ (rs.screen = .view ↔ rs.viewing = true) ∧
    ∀ k, rs.screen = .edit k ↔ rs.editIndex? = some k)
end

