-- ==== Sys2Proof/Laws/Encoding.lean ====
section
/-! SUPPORT. A field read from a word made of fields is that field, and a word is made of its fields: no bit of a format is
dropped or read twice. -/

namespace Sys2Proof

/-- Bit `i` of an event word is a bit of its code or of its argument. -/
theorem eWord_getLsbD (code : BitVec 3) (arg : Word) (i : Nat) :
    (eWord code arg).getLsbD i = if i < 16 then arg.getLsbD i else code.getLsbD (i - 16) := by
  show (code ++ arg : BitVec (3 + 16)).getLsbD i = _
  rw [BitVec.getLsbD_append]

/-- Bit `i` of a poll sample is a bit of its delta, of its button code, or its switch bit. -/
theorem pWord_getLsbD (auxN : Bool) (btn : BitVec 3) (delta : Word) (i : Nat) :
    (pWord auxN btn delta).getLsbD i =
      if i < 16 then delta.getLsbD i else if i - 16 < 3 then btn.getLsbD (i - 16)
      else (BitVec.ofBool auxN).getLsbD (i - 16 - 3) := by
  show (BitVec.ofBool auxN ++ btn ++ delta : BitVec (1 + 3 + 16)).getLsbD i = _
  rw [BitVec.getLsbD_append]
  split
  · rfl
  · rw [BitVec.getLsbD_append]

@[simp] theorem eCode_eWord (code : BitVec 3) (arg : Word) : eCode (eWord code arg) = code := by
  apply BitVec.eq_of_getLsbD_eq
  intro i hi
  rw [eCode, BitVec.getLsbD_extractLsb', eWord_getLsbD]
  simp [hi]

@[simp] theorem eArg_eWord (code : BitVec 3) (arg : Word) : eArg (eWord code arg) = arg := by
  apply BitVec.eq_of_getLsbD_eq
  intro i hi
  rw [eArg, BitVec.getLsbD_extractLsb', eWord_getLsbD]
  simp [hi]

@[simp] theorem pAuxN_pWord (auxN : Bool) (btn : BitVec 3) (delta : Word) : pAuxN (pWord auxN btn delta) = auxN := by
  rw [pAuxN, pWord_getLsbD]; simp

@[simp] theorem pBtn_pWord (auxN : Bool) (btn : BitVec 3) (delta : Word) : pBtn (pWord auxN btn delta) = btn := by
  apply BitVec.eq_of_getLsbD_eq
  intro i hi
  rw [pBtn, BitVec.getLsbD_extractLsb', pWord_getLsbD]
  simp [hi]

@[simp] theorem pDelta_pWord (auxN : Bool) (btn : BitVec 3) (delta : Word) : pDelta (pWord auxN btn delta) = delta := by
  apply BitVec.eq_of_getLsbD_eq
  intro i hi
  rw [pDelta, BitVec.getLsbD_extractLsb', pWord_getLsbD]
  simp [hi]

@[simp] theorem sW_sWord (w : Bool) (k : BitVec 2) : sW (sWord w k) = w := by
  revert w k; decide

@[simp] theorem sK_sWord (w : Bool) (k : BitVec 2) : sK (sWord w k) = k := by
  revert w k; decide

theorem eWord_of_fields (w : BitVec 19) : eWord (eCode w) (eArg w) = w := by
  apply BitVec.eq_of_getLsbD_eq
  intro i hi
  rw [eWord_getLsbD, eCode, eArg]
  split
  · simp [*]
  · rw [BitVec.getLsbD_extractLsb', show 16 + (i - 16) = i by omega]
    simp [show i - 16 < 3 by omega]

theorem pWord_of_fields (w : BitVec 20) : pWord (pAuxN w) (pBtn w) (pDelta w) = w := by
  apply BitVec.eq_of_getLsbD_eq
  intro i hi
  rw [pWord_getLsbD, pAuxN, pBtn, pDelta]
  split
  · simp [*]
  · split
    · rw [BitVec.getLsbD_extractLsb', show 16 + (i - 16) = i by omega]
      simp [*]
    · obtain rfl : i = 19 := by omega
      simp

theorem sWord_of_fields (w : BitVec 3) : sWord (sW w) (sK w) = w := by
  revert w; decide

end Sys2Proof
end

