-- ==== Sys2Proof/Laws/State.lean ====
section
/-! SUPPORT. What each update of State leaves in each field, once, so that no later proof unfolds a record update. -/

namespace Sys2Proof.Machine

/-! ### Duration and counter accessors -/

@[simp] theorem State.setDuration_duration_same (s : State) (k : Index) (v : Word) :
    (s.setDuration k v).duration k = v := by cases k <;> rfl

theorem State.setDuration_duration_other (s : State) (v : Word) {k j : Index} (h : j ≠ k) :
    (s.setDuration k v).duration j = s.duration j := by
  cases k <;> cases j <;> first | rfl | exact absurd rfl h

@[simp] theorem State.setDuration_counter (s : State) (k j : Index) (v : Word) :
    (s.setDuration k v).counter j = s.counter j := by cases k <;> cases j <;> rfl

/-- Writing back what a Duration register holds changes nothing. -/
@[simp] theorem State.setDuration_self (s : State) (k : Index) : s.setDuration k (s.duration k) = s := by
  cases k <;> rfl

@[simp] theorem State.count_counter_same (s : State) (k : Index) : (s.count k).counter k = s.counter k + 1#16 := by
  cases k <;> rfl

theorem State.count_counter_other (s : State) {k j : Index} (h : j ≠ k) :
    (s.count k).counter j = s.counter j := by
  cases k <;> cases j <;> first | rfl | exact absurd rfl h

@[simp] theorem State.count_duration (s : State) (k j : Index) : (s.count k).duration j = s.duration j := by
  cases k <;> cases j <;> rfl

@[simp] theorem State.zeroCounters_counter (s : State) (k : Index) : s.zeroCounters.counter k = 0#16 := by
  cases k <;> rfl

@[simp] theorem State.zeroCounters_duration (s : State) (k : Index) : s.zeroCounters.duration k = s.duration k := by
  cases k <;> rfl

@[simp] theorem State.saveSlot_duration (s : State) (k j : Index) : (s.saveSlot k).duration j = s.duration j := by
  cases j <;> rfl

@[simp] theorem State.saveSlots_duration (s : State) (ks : List Index) (j : Index) :
    (s.saveSlots ks).duration j = s.duration j := by
  induction ks generalizing s with
  | nil => rfl
  | cons k ks ih => exact (ih (s.saveSlot k)).trans (s.saveSlot_duration k j)

/-- The comparator says exactly that the counter is no less than the Duration (`40_tick.md` R71). -/
theorem State.reached_iff (s : State) (k : Index) : s.reached k = true ↔ s.duration k ≤ s.counter k := by
  simp [State.reached]

/-! ### One lemma per field per update -/

@[simp] theorem State.setDuration_firstCounter (s : State) (k : Index) (v : Word) : (s.setDuration k v).firstCounter = s.firstCounter := by cases k <;> rfl
@[simp] theorem State.setDuration_secondCounter (s : State) (k : Index) (v : Word) : (s.setDuration k v).secondCounter = s.secondCounter := by cases k <;> rfl
@[simp] theorem State.setDuration_idleCounter (s : State) (k : Index) (v : Word) : (s.setDuration k v).idleCounter = s.idleCounter := by cases k <;> rfl
@[simp] theorem State.setDuration_runState (s : State) (k : Index) (v : Word) : (s.setDuration k v).runState = s.runState := by cases k <;> rfl
@[simp] theorem State.setDuration_mode (s : State) (k : Index) (v : Word) : (s.setDuration k v).mode = s.mode := by cases k <;> rfl
@[simp] theorem State.setDuration_outputLevel (s : State) (k : Index) (v : Word) : (s.setDuration k v).outputLevel = s.outputLevel := by cases k <;> rfl
@[simp] theorem State.setDuration_lpHandled (s : State) (k : Index) (v : Word) : (s.setDuration k v).lpHandled = s.lpHandled := by cases k <;> rfl
@[simp] theorem State.setDuration_auxPrev (s : State) (k : Index) (v : Word) : (s.setDuration k v).auxPrev = s.auxPrev := by cases k <;> rfl
@[simp] theorem State.setDuration_nvm (s : State) (k : Index) (v : Word) : (s.setDuration k v).nvm = s.nvm := by cases k <;> rfl
@[simp] theorem State.setDuration_inputs (s : State) (k : Index) (v : Word) : (s.setDuration k v).inputs = s.inputs := by cases k <;> rfl
@[simp] theorem State.setDuration_placed (s : State) (k : Index) (v : Word) : (s.setDuration k v).placed = s.placed := by cases k <;> rfl

@[simp] theorem State.count_pulse1 (s : State) (k : Index) : (s.count k).pulse1 = s.pulse1 := by cases k <;> rfl
@[simp] theorem State.count_pulse2 (s : State) (k : Index) : (s.count k).pulse2 = s.pulse2 := by cases k <;> rfl
@[simp] theorem State.count_idle (s : State) (k : Index) : (s.count k).idle = s.idle := by cases k <;> rfl
@[simp] theorem State.count_runState (s : State) (k : Index) : (s.count k).runState = s.runState := by cases k <;> rfl
@[simp] theorem State.count_mode (s : State) (k : Index) : (s.count k).mode = s.mode := by cases k <;> rfl
@[simp] theorem State.count_outputLevel (s : State) (k : Index) : (s.count k).outputLevel = s.outputLevel := by cases k <;> rfl
@[simp] theorem State.count_lpHandled (s : State) (k : Index) : (s.count k).lpHandled = s.lpHandled := by cases k <;> rfl
@[simp] theorem State.count_auxPrev (s : State) (k : Index) : (s.count k).auxPrev = s.auxPrev := by cases k <;> rfl
@[simp] theorem State.count_nvm (s : State) (k : Index) : (s.count k).nvm = s.nvm := by cases k <;> rfl
@[simp] theorem State.count_inputs (s : State) (k : Index) : (s.count k).inputs = s.inputs := by cases k <;> rfl
@[simp] theorem State.count_placed (s : State) (k : Index) : (s.count k).placed = s.placed := by cases k <;> rfl

@[simp] theorem State.zeroCounters_pulse1 (s : State) : (s.zeroCounters).pulse1 = s.pulse1 := rfl
@[simp] theorem State.zeroCounters_pulse2 (s : State) : (s.zeroCounters).pulse2 = s.pulse2 := rfl
@[simp] theorem State.zeroCounters_idle (s : State) : (s.zeroCounters).idle = s.idle := rfl
@[simp] theorem State.zeroCounters_firstCounter (s : State) : (s.zeroCounters).firstCounter = 0#16 := rfl
@[simp] theorem State.zeroCounters_secondCounter (s : State) : (s.zeroCounters).secondCounter = 0#16 := rfl
@[simp] theorem State.zeroCounters_idleCounter (s : State) : (s.zeroCounters).idleCounter = 0#16 := rfl
@[simp] theorem State.zeroCounters_runState (s : State) : (s.zeroCounters).runState = s.runState := rfl
@[simp] theorem State.zeroCounters_mode (s : State) : (s.zeroCounters).mode = s.mode := rfl
@[simp] theorem State.zeroCounters_outputLevel (s : State) : (s.zeroCounters).outputLevel = s.outputLevel := rfl
@[simp] theorem State.zeroCounters_lpHandled (s : State) : (s.zeroCounters).lpHandled = s.lpHandled := rfl
@[simp] theorem State.zeroCounters_auxPrev (s : State) : (s.zeroCounters).auxPrev = s.auxPrev := rfl
@[simp] theorem State.zeroCounters_nvm (s : State) : (s.zeroCounters).nvm = s.nvm := rfl
@[simp] theorem State.zeroCounters_inputs (s : State) : (s.zeroCounters).inputs = s.inputs := rfl
@[simp] theorem State.zeroCounters_placed (s : State) : (s.zeroCounters).placed = s.placed := rfl

@[simp] theorem State.saveSlot_pulse1 (s : State) (k : Index) : (s.saveSlot k).pulse1 = s.pulse1 := rfl
@[simp] theorem State.saveSlot_pulse2 (s : State) (k : Index) : (s.saveSlot k).pulse2 = s.pulse2 := rfl
@[simp] theorem State.saveSlot_idle (s : State) (k : Index) : (s.saveSlot k).idle = s.idle := rfl
@[simp] theorem State.saveSlot_firstCounter (s : State) (k : Index) : (s.saveSlot k).firstCounter = s.firstCounter := rfl
@[simp] theorem State.saveSlot_secondCounter (s : State) (k : Index) : (s.saveSlot k).secondCounter = s.secondCounter := rfl
@[simp] theorem State.saveSlot_idleCounter (s : State) (k : Index) : (s.saveSlot k).idleCounter = s.idleCounter := rfl
@[simp] theorem State.saveSlot_runState (s : State) (k : Index) : (s.saveSlot k).runState = s.runState := rfl
@[simp] theorem State.saveSlot_mode (s : State) (k : Index) : (s.saveSlot k).mode = s.mode := rfl
@[simp] theorem State.saveSlot_outputLevel (s : State) (k : Index) : (s.saveSlot k).outputLevel = s.outputLevel := rfl
@[simp] theorem State.saveSlot_lpHandled (s : State) (k : Index) : (s.saveSlot k).lpHandled = s.lpHandled := rfl
@[simp] theorem State.saveSlot_auxPrev (s : State) (k : Index) : (s.saveSlot k).auxPrev = s.auxPrev := rfl
@[simp] theorem State.saveSlot_nvm (s : State) (k : Index) : (s.saveSlot k).nvm = memWrite s.nvm k (s.duration k) := rfl
@[simp] theorem State.saveSlot_inputs (s : State) (k : Index) : (s.saveSlot k).inputs = s.inputs := rfl
@[simp] theorem State.saveSlot_placed (s : State) (k : Index) : (s.saveSlot k).placed = s.placed := rfl

@[simp] theorem State.loadSlot_firstCounter (s : State) (k : Index) : (s.loadSlot k).firstCounter = s.firstCounter := by unfold State.loadSlot; cases k <;> (dsimp only; split <;> rfl)
@[simp] theorem State.loadSlot_secondCounter (s : State) (k : Index) : (s.loadSlot k).secondCounter = s.secondCounter := by unfold State.loadSlot; cases k <;> (dsimp only; split <;> rfl)
@[simp] theorem State.loadSlot_idleCounter (s : State) (k : Index) : (s.loadSlot k).idleCounter = s.idleCounter := by unfold State.loadSlot; cases k <;> (dsimp only; split <;> rfl)
@[simp] theorem State.loadSlot_runState (s : State) (k : Index) : (s.loadSlot k).runState = s.runState := by unfold State.loadSlot; cases k <;> (dsimp only; split <;> rfl)
@[simp] theorem State.loadSlot_mode (s : State) (k : Index) : (s.loadSlot k).mode = s.mode := by unfold State.loadSlot; cases k <;> (dsimp only; split <;> rfl)
@[simp] theorem State.loadSlot_outputLevel (s : State) (k : Index) : (s.loadSlot k).outputLevel = s.outputLevel := by unfold State.loadSlot; cases k <;> (dsimp only; split <;> rfl)
@[simp] theorem State.loadSlot_lpHandled (s : State) (k : Index) : (s.loadSlot k).lpHandled = s.lpHandled := by unfold State.loadSlot; cases k <;> (dsimp only; split <;> rfl)
@[simp] theorem State.loadSlot_auxPrev (s : State) (k : Index) : (s.loadSlot k).auxPrev = s.auxPrev := by unfold State.loadSlot; cases k <;> (dsimp only; split <;> rfl)
@[simp] theorem State.loadSlot_inputs (s : State) (k : Index) : (s.loadSlot k).inputs = s.inputs := by unfold State.loadSlot; cases k <;> (dsimp only; split <;> rfl)
@[simp] theorem State.loadSlot_placed (s : State) (k : Index) : (s.loadSlot k).placed = s.placed := by unfold State.loadSlot; cases k <;> (dsimp only; split <;> rfl)

@[simp] theorem State.saveSlots_pulse1 (s : State) (ks : List Index) : (s.saveSlots ks).pulse1 = s.pulse1 := by induction ks generalizing s with
  | nil => rfl
  | cons k ks ih => exact ih (s.saveSlot k)
@[simp] theorem State.saveSlots_pulse2 (s : State) (ks : List Index) : (s.saveSlots ks).pulse2 = s.pulse2 := by induction ks generalizing s with
  | nil => rfl
  | cons k ks ih => exact ih (s.saveSlot k)
@[simp] theorem State.saveSlots_idle (s : State) (ks : List Index) : (s.saveSlots ks).idle = s.idle := by induction ks generalizing s with
  | nil => rfl
  | cons k ks ih => exact ih (s.saveSlot k)
@[simp] theorem State.saveSlots_firstCounter (s : State) (ks : List Index) : (s.saveSlots ks).firstCounter = s.firstCounter := by induction ks generalizing s with
  | nil => rfl
  | cons k ks ih => exact ih (s.saveSlot k)
@[simp] theorem State.saveSlots_secondCounter (s : State) (ks : List Index) : (s.saveSlots ks).secondCounter = s.secondCounter := by induction ks generalizing s with
  | nil => rfl
  | cons k ks ih => exact ih (s.saveSlot k)
@[simp] theorem State.saveSlots_idleCounter (s : State) (ks : List Index) : (s.saveSlots ks).idleCounter = s.idleCounter := by induction ks generalizing s with
  | nil => rfl
  | cons k ks ih => exact ih (s.saveSlot k)
@[simp] theorem State.saveSlots_runState (s : State) (ks : List Index) : (s.saveSlots ks).runState = s.runState := by induction ks generalizing s with
  | nil => rfl
  | cons k ks ih => exact ih (s.saveSlot k)
@[simp] theorem State.saveSlots_mode (s : State) (ks : List Index) : (s.saveSlots ks).mode = s.mode := by induction ks generalizing s with
  | nil => rfl
  | cons k ks ih => exact ih (s.saveSlot k)
@[simp] theorem State.saveSlots_outputLevel (s : State) (ks : List Index) : (s.saveSlots ks).outputLevel = s.outputLevel := by induction ks generalizing s with
  | nil => rfl
  | cons k ks ih => exact ih (s.saveSlot k)
@[simp] theorem State.saveSlots_lpHandled (s : State) (ks : List Index) : (s.saveSlots ks).lpHandled = s.lpHandled := by induction ks generalizing s with
  | nil => rfl
  | cons k ks ih => exact ih (s.saveSlot k)
@[simp] theorem State.saveSlots_auxPrev (s : State) (ks : List Index) : (s.saveSlots ks).auxPrev = s.auxPrev := by induction ks generalizing s with
  | nil => rfl
  | cons k ks ih => exact ih (s.saveSlot k)
@[simp] theorem State.saveSlots_inputs (s : State) (ks : List Index) : (s.saveSlots ks).inputs = s.inputs := by induction ks generalizing s with
  | nil => rfl
  | cons k ks ih => exact ih (s.saveSlot k)
@[simp] theorem State.saveSlots_placed (s : State) (ks : List Index) : (s.saveSlots ks).placed = s.placed := by induction ks generalizing s with
  | nil => rfl
  | cons k ks ih => exact ih (s.saveSlot k)

end Sys2Proof.Machine
end

