-- ==== Sys2Proof/Laws/Memory.lean ====
section
/-! SUPPORT. The laws of the store: read after write, canonical form kept, equal contents are equal lists. -/

namespace Sys2Proof.Machine

/-! ### Looking up an entry -/

theorem Memory.find_put_same (m : Memory) (a : Nat) (v : Byte) : Memory.find (Memory.put m a v) a = some v := by
  induction m with
  | nil => simp [Memory.put, Memory.find]
  | cons c m ih =>
    obtain ⟨x, b⟩ := c
    simp only [Memory.put]
    split
    · simp [Memory.find]
    · split
      · simp [Memory.find]
      · rename_i h; simp [Memory.find, ih, Ne.symm h]

theorem Memory.find_put_other (m : Memory) {a b : Nat} (v : Byte) (h : b ≠ a) :
    Memory.find (Memory.put m a v) b = Memory.find m b := by
  induction m with
  | nil => simp [Memory.put, Memory.find, Ne.symm h]
  | cons c m ih =>
    obtain ⟨x, w⟩ := c
    simp only [Memory.put]
    split
    · simp [Memory.find, Ne.symm h]
    · split
      · rename_i e; subst e; simp [Memory.find, Ne.symm h]
      · simp [Memory.find, ih]

theorem Memory.find_eq_none {m : Memory} {a : Nat} (h : ∀ c ∈ m, c.1 ≠ a) : Memory.find m a = none := by
  induction m with
  | nil => rfl
  | cons c m ih =>
    obtain ⟨x, b⟩ := c
    simp only [List.mem_cons, forall_eq_or_imp] at h
    simp [Memory.find, h.1, ih h.2]

theorem Memory.find_some {m : Memory} {a : Nat} {v : Byte} (h : Memory.find m a = some v) : (a, v) ∈ m := by
  induction m with
  | nil => simp [Memory.find] at h
  | cons c m ih =>
    obtain ⟨x, b⟩ := c
    by_cases e : x = a
    · simp [Memory.find, e] at h; simp [e, h]
    · simp [Memory.find, e] at h; exact List.mem_cons_of_mem _ (ih h)

theorem Memory.find_drop_same {m : Memory} (a : Nat) (h : m.Pairwise (fun c d => c.1 < d.1)) :
    Memory.find (Memory.drop m a) a = none := by
  induction m with
  | nil => rfl
  | cons c m ih =>
    obtain ⟨x, b⟩ := c
    rw [List.pairwise_cons] at h
    by_cases e : x = a
    · subst e
      simp only [Memory.drop, if_pos]
      exact Memory.find_eq_none fun c hc => Nat.ne_of_gt (h.1 c hc)
    · simp [Memory.drop, Memory.find, e, ih h.2]

theorem Memory.find_drop_other (m : Memory) {a b : Nat} (h : b ≠ a) :
    Memory.find (Memory.drop m a) b = Memory.find m b := by
  induction m with
  | nil => rfl
  | cons c m ih =>
    obtain ⟨x, w⟩ := c
    by_cases e : x = a
    · subst e; simp [Memory.drop, Memory.find, Ne.symm h]
    · simp [Memory.drop, Memory.find, e, ih]

/-! ### The canonical form -/

theorem Memory.mem_put {m : Memory} {a : Nat} {v : Byte} {c : Host.Cell} (h : c ∈ Memory.put m a v) :
    c = (a, v) ∨ c ∈ m := by
  induction m with
  | nil => simpa [Memory.put] using h
  | cons d m ih =>
    obtain ⟨x, b⟩ := d
    simp only [Memory.put] at h
    split at h
    · simpa using h
    · split at h
      · simp only [List.mem_cons] at h ⊢; tauto
      · simp only [List.mem_cons] at h ⊢
        rcases h with h | h
        · exact .inr (.inl h)
        · rcases ih h with h | h <;> tauto

theorem Memory.mem_drop {m : Memory} {a : Nat} {c : Host.Cell} (h : c ∈ Memory.drop m a) : c ∈ m := by
  induction m with
  | nil => exact h
  | cons d m ih =>
    obtain ⟨x, b⟩ := d
    simp only [Memory.drop] at h
    split at h
    · exact List.mem_cons_of_mem _ h
    · rcases List.mem_cons.mp h with h | h
      · exact h ▸ List.mem_cons_self
      · exact List.mem_cons_of_mem _ (ih h)

theorem Memory.put_sorted {m : Memory} (a : Nat) (v : Byte) (h : m.Pairwise (fun c d => c.1 < d.1)) :
    (Memory.put m a v).Pairwise (fun c d => c.1 < d.1) := by
  induction m with
  | nil => simp [Memory.put]
  | cons d m ih =>
    obtain ⟨x, b⟩ := d
    have hc := List.pairwise_cons.mp h
    simp only [Memory.put]
    split
    · rename_i hx
      refine List.pairwise_cons.mpr ⟨fun c hm => ?_, h⟩
      rcases List.mem_cons.mp hm with hm | hm
      · exact hm ▸ hx
      · exact Nat.lt_trans hx (hc.1 c hm)
    · split
      · rename_i e; subst e; exact List.pairwise_cons.mpr ⟨hc.1, hc.2⟩
      · refine List.pairwise_cons.mpr ⟨fun c hm => ?_, ih hc.2⟩
        rcases Memory.mem_put hm with hm | hm
        · subst hm; show x < a; omega
        · exact hc.1 c hm

theorem Memory.drop_sorted {m : Memory} (a : Nat) (h : m.Pairwise (fun c d => c.1 < d.1)) :
    (Memory.drop m a).Pairwise (fun c d => c.1 < d.1) := by
  induction m with
  | nil => exact h
  | cons d m ih =>
    obtain ⟨x, b⟩ := d
    have hc := List.pairwise_cons.mp h
    simp only [Memory.drop]
    split
    · exact hc.2
    · exact List.pairwise_cons.mpr ⟨fun c hm => hc.1 c (Memory.mem_drop hm), ih hc.2⟩

/-- A byte write keeps the canonical form. -/
theorem Memory.write_wf {m : Memory} (h : Memory.wf m) (a : NvmAddr) (v : Byte) : Memory.wf (Memory.write m a v) := by
  unfold Memory.write
  split
  · exact ⟨Memory.drop_sorted a h.1, fun c hc => h.2 c (Memory.mem_drop hc)⟩
  · rename_i hv
    refine ⟨Memory.put_sorted a v h.1, fun c hc => ?_⟩
    rcases Memory.mem_put hc with hc | hc
    · subst hc; exact ⟨a.isLt, hv⟩
    · exact h.2 c hc

/-- A slot write keeps the canonical form. -/
theorem memWrite_wf {m : Memory} (h : Memory.wf m) (k : Index) (v : Word) : Memory.wf (memWrite m k v) :=
  Memory.write_wf (Memory.write_wf h _ _) _ _

/-! ### Read after write, by byte -/

theorem Memory.read_write_same {m : Memory} (h : Memory.wf m) (a : NvmAddr) (v : Byte) :
    Memory.read (Memory.write m a v) a = v := by
  unfold Memory.read Memory.write
  split
  · rename_i e; rw [Memory.find_drop_same _ h.1, e]; rfl
  · rw [Memory.find_put_same]; rfl

theorem Memory.read_write_other (m : Memory) {a b : NvmAddr} (v : Byte) (h : b ≠ a) :
    Memory.read (Memory.write m a v) b = Memory.read m b := by
  have hv : (b : Nat) ≠ a := fun e => h (Fin.ext e)
  unfold Memory.read Memory.write
  split
  · rw [Memory.find_drop_other m hv]
  · rw [Memory.find_put_other m v hv]

/-! ### Equal contents are equal lists -/

theorem Memory.find_of_mem {m : Memory} (h : m.Pairwise (fun c d => c.1 < d.1)) {a : Nat} {v : Byte}
    (hm : (a, v) ∈ m) : Memory.find m a = some v := by
  induction m with
  | nil => simp at hm
  | cons d m ih =>
    obtain ⟨x, b⟩ := d
    have hc := List.pairwise_cons.mp h
    rcases List.mem_cons.mp hm with e | e
    · simp [Memory.find, Prod.mk.inj e |>.1.symm, Prod.mk.inj e |>.2.symm]
    · have : x < a := hc.1 _ e
      simp [Memory.find, Nat.ne_of_lt this, ih hc.2 e]

/-- In a canonical store a byte is listed with the value it reads as, exactly when that is not what an unlisted byte reads as. -/
theorem Memory.mem_iff_read {m : Memory} (h : Memory.wf m) (a : NvmAddr) (v : Byte) :
    (a.val, v) ∈ m ↔ Memory.read m a = v ∧ v ≠ Memory.unlisted a := by
  constructor
  · intro hm
    exact ⟨by simp [Memory.read, Memory.find_of_mem h.1 hm], (h.2 _ hm).2⟩
  · rintro ⟨hr, hv⟩
    unfold Memory.read at hr
    cases hf : Memory.find m a with
    | none => rw [hf] at hr; exact absurd hr.symm hv
    | some w =>
      rw [hf] at hr
      exact (show w = v from hr) ▸ Memory.find_some hf

theorem Memory.eq_of_same_members {m n : Memory} (hm : m.Pairwise (fun c d => c.1 < d.1))
    (hn : n.Pairwise (fun c d => c.1 < d.1)) (h : ∀ c, c ∈ m ↔ c ∈ n) : m = n := by
  have irr : ∀ l : Memory, l.Pairwise (fun c d => c.1 < d.1) → l.Nodup := fun l hl =>
    hl.imp fun hlt e => by subst e; exact absurd hlt (Nat.lt_irrefl _)
  refine List.Perm.eq_of_pairwise (le := fun c d => c.1 < d.1) ?_ hm hn
    ((List.perm_ext_iff_of_nodup (irr m hm) (irr n hn)).mpr h)
  intro a b _ _ hab hba
  exact absurd (Nat.lt_trans hab hba) (Nat.lt_irrefl _)

/-- Two canonical stores that read the same everywhere are the same list. -/
theorem Memory.ext_read {m n : Memory} (hm : Memory.wf m) (hn : Memory.wf n)
    (h : ∀ a, Memory.read m a = Memory.read n a) : m = n := by
  refine Memory.eq_of_same_members hm.1 hn.1 fun c => ?_
  obtain ⟨x, v⟩ := c
  constructor
  · intro hc
    have := (Memory.mem_iff_read hm ⟨x, (hm.2 _ hc).1⟩ v).mp hc
    exact (Memory.mem_iff_read hn ⟨x, (hm.2 _ hc).1⟩ v).mpr (h _ ▸ this)
  · intro hc
    have := (Memory.mem_iff_read hn ⟨x, (hn.2 _ hc).1⟩ v).mp hc
    exact (Memory.mem_iff_read hm ⟨x, (hn.2 _ hc).1⟩ v).mpr ((h _).symm ▸ this)

/-! ### Bytes and slots -/

/-- A word is its two bytes. -/
theorem highByte_append_lowByte (v : Word) : highByte v ++ lowByte v = v := by
  apply BitVec.eq_of_toNat_eq
  show (highByte v ++ lowByte v : BitVec (8 + 8)).toNat = v.toNat
  rw [BitVec.toNat_append, ← Nat.shiftLeft_add_eq_or_of_lt (lowByte v).isLt]
  simp only [highByte, lowByte, BitVec.extractLsb'_toNat, Nat.shiftLeft_eq, Nat.shiftRight_eq_div_pow]
  have := v.isLt
  omega

theorem highAddr_ne_lowAddr (j k : Index) : highAddr j ≠ lowAddr k := by cases j <;> cases k <;> decide

theorem lowAddr_inj {j k : Index} (h : lowAddr j = lowAddr k) : j = k := by
  cases j <;> cases k <;> first | rfl | exact absurd h (by decide)

theorem highAddr_inj {j k : Index} (h : highAddr j = highAddr k) : j = k := by
  cases j <;> cases k <;> first | rfl | exact absurd h (by decide)

/-- A slot write leaves every byte outside the slot. -/
theorem memWrite_read_outside (m : Memory) (k : Index) (v : Word) {a : NvmAddr} (hl : a ≠ lowAddr k)
    (hh : a ≠ highAddr k) : Memory.read (memWrite m k v) a = Memory.read m a := by
  unfold memWrite
  rw [Memory.read_write_other _ _ hh, Memory.read_write_other _ _ hl]

theorem memWrite_read_low {m : Memory} (h : Memory.wf m) (k : Index) (v : Word) :
    Memory.read (memWrite m k v) (lowAddr k) = lowByte v := by
  unfold memWrite
  rw [Memory.read_write_other _ _ (highAddr_ne_lowAddr k k).symm, Memory.read_write_same h]

theorem memWrite_read_high {m : Memory} (h : Memory.wf m) (k : Index) (v : Word) :
    Memory.read (memWrite m k v) (highAddr k) = highByte v := by
  unfold memWrite
  rw [Memory.read_write_same (Memory.write_wf h _ _)]

/-- A slot write leaves the other slots. -/
theorem memRead_memWrite_other (m : Memory) {j k : Index} (v : Word) (h : j ≠ k) :
    memRead (memWrite m k v) j = memRead m j := by
  unfold memRead
  rw [memWrite_read_outside m k v (highAddr_ne_lowAddr j k) fun e => h (highAddr_inj e),
    memWrite_read_outside m k v (fun e => h (lowAddr_inj e)) (highAddr_ne_lowAddr k j).symm]

/-- SAVEs keep the canonical form. -/
theorem State.saveSlots_wf {s : State} (h : Memory.wf s.nvm) (ks : List Index) : Memory.wf (s.saveSlots ks).nvm := by
  induction ks generalizing s with
  | nil => exact h
  | cons k ks ih => exact ih (memWrite_wf h k _)

/-- LOAD keeps the canonical form. -/
theorem State.loadSlot_wf {s : State} (h : Memory.wf s.nvm) (k : Index) : Memory.wf (s.loadSlot k).nvm := by
  unfold State.loadSlot
  dsimp only
  split
  · exact memWrite_wf h k _
  · simpa using h

end Sys2Proof.Machine
end

