-- ==== Sys2Proof/Laws/Exec.lean ====
section
/-! SUPPORT. What each operation answers, and how outcomes, lists of operations and lists of words compose. -/

namespace Sys2Proof.Machine

/-! ### One equation per operation -/

@[simp] theorem exec_tick (s : State) : exec .tick s = .next (tick s) := rfl
@[simp] theorem exec_start (s : State) : exec .start s = .next (startSequence s) := rfl
@[simp] theorem exec_stop (s : State) : exec .stop s = .next (stopSequence s) := rfl
@[simp] theorem exec_cycleMode (s : State) : exec .cycleMode s = .next (cycleMode s) := rfl
@[simp] theorem exec_toggleEdit (s : State) : exec .toggleEdit s = .next (toggleEdit s) := rfl
@[simp] theorem exec_adjust (delta : Word) (s : State) : exec (.adjust delta) s = .next (adjust delta s) := rfl
@[simp] theorem exec_reset (s : State) : exec .reset s = .next (resetAll s) := rfl

@[simp] theorem exec_pollOpen (a : Bool) (d : Word) (s : State) :
    exec (.pollOpen a d) s = .next (poll .opened a d s) := rfl
@[simp] theorem exec_pollClosed (a : Bool) (d : Word) (s : State) :
    exec (.pollClosed a d) s = .next (poll .closed a d s) := rfl
@[simp] theorem exec_pollPressed (a : Bool) (d : Word) (s : State) :
    exec (.pollPressed a d) s = .next (poll .pressed a d s) := rfl
@[simp] theorem exec_pollHeld (a : Bool) (d : Word) (s : State) :
    exec (.pollHeld a d) s = .next (poll .held a d s) := rfl
@[simp] theorem exec_pollReleased (a : Bool) (d : Word) (s : State) :
    exec (.pollReleased a d) s = .next (poll .released a d s) := rfl
@[simp] theorem exec_pollClicked (a : Bool) (d : Word) (s : State) :
    exec (.pollClicked a d) s = .next (poll .clicked a d s) := rfl
@[simp] theorem exec_pollDoubleClicked (a : Bool) (d : Word) (s : State) :
    exec (.pollDoubleClicked a d) s = .next (poll .doubleClicked a d s) := rfl

/-- LOAD and SAVE with a slot index in range. -/
theorem exec_load {b : BitVec 2} {k : Index} (h : Index.ofBits? b = some k) (s : State) :
    exec (.load b) s = .next (s.loadSlot k) := by
  show execLoad b s = _; simp [execLoad, h]

theorem exec_save {b : BitVec 2} {k : Index} (h : Index.ofBits? b = some k) (s : State) :
    exec (.save b) s = .next (s.saveSlot k) := by
  show execSave b s = _; simp [execSave, h]

/-- The slot index bits are in range exactly when they select an index. -/
theorem slotInRange_iff (b : BitVec 2) : slotInRange b = true ↔ ∃ k, Index.ofBits? b = some k := by
  have h : ∀ b : BitVec 2, slotInRange b = (Index.ofBits? b).isSome := by decide
  rw [h, Option.isSome_iff_exists]

/-! ### Sequences -/

@[simp] theorem andThen_next (s : State) (f : State → Host.Outcome State Fault Refusal) :
    andThen (.next s) f = f s := rfl

/-- What went on in sequence went on at each part. -/
theorem andThen_eq_next {o : Host.Outcome State Fault Refusal} {f : State → Host.Outcome State Fault Refusal} {t : State}
    (h : andThen o f = .next t) : ∃ u, o = .next u ∧ f u = .next t := by
  cases o with
  | next u => exact ⟨u, rfl, h⟩
  | fault r => cases r
  | refused r => exact absurd h (by simp [andThen])

@[simp] theorem execAll_nil (s : State) : execAll [] s = .next s := rfl

@[simp] theorem execAll_cons (i : Instr) (is : List Instr) (s : State) :
    execAll (i :: is) s = andThen (exec i s) (execAll is) := rfl

theorem execAll_append (is js : List Instr) (s : State) :
    execAll (is ++ js) s = andThen (execAll is s) (execAll js) := by
  induction is generalizing s with
  | nil => rfl
  | cons i is ih =>
    simp only [List.cons_append, execAll_cons]
    cases exec i s with
    | next u => exact ih u
    | fault r => rfl
    | refused r => rfl

@[simp] theorem applyFrames_nil (s : State) : applyFrames [] s = .next s := rfl

@[simp] theorem applyFrames_cons (f : Frame) (fs : List Frame) (s : State) :
    applyFrames (f :: fs) s = andThen (applyFrame f s) (applyFrames fs) := rfl

/-- One word alone. -/
theorem applyFrames_one (f : Frame) (s : State) : applyFrames [f] s = applyFrame f s := by
  simp only [applyFrames_cons]
  cases applyFrame f s <;> rfl

/-- What every operation keeps, a list of operations keeps. -/
theorem execAll_keeps {P : State → Prop} {is : List Instr} (h : ∀ i ∈ is, ∀ s t, P s → exec i s = .next t → P t)
    {s t : State} (hs : P s) (ht : execAll is s = .next t) : P t := by
  induction is generalizing s with
  | nil => cases ht; exact hs
  | cons i is ih =>
    obtain ⟨u, hu, ht⟩ := andThen_eq_next ht
    exact ih (fun j hj => h j (List.mem_cons_of_mem _ hj)) (h i List.mem_cons_self s u hs hu) ht

/-- What every operation keeps, the words of a stimulus keep. -/
theorem applyFrames_keeps {P : State → Prop} {fs : List Frame}
    (h : ∀ f ∈ fs, ∀ i, decode f = .operation i → ∀ s t, P s → exec i s = .next t → P t)
    {s t : State} (hs : P s) (ht : applyFrames fs s = .next t) : P t := by
  induction fs generalizing s with
  | nil => cases ht; exact hs
  | cons f fs ih =>
    obtain ⟨u, hu, ht⟩ := andThen_eq_next ht
    refine ih (fun g hg => h g (List.mem_cons_of_mem _ hg)) ?_ ht
    unfold applyFrame at hu
    split at hu
    · exact h f List.mem_cons_self _ ‹_› s u hs hu
    · cases hu; exact hs
    · cases hu

end Sys2Proof.Machine
end

