-- ==== Sys2Proof/Laws/Events.lean ====
section
/-! SUPPORT. What TICK, the core events and RESET can do, said once: one inversion lemma per operation, and the fields each leaves
alone. -/

namespace Sys2Proof.Machine

/-! ### TICK -/

/-- Everything a TICK can do (`40_tick.md` R65 to R69). -/
theorem tick_cases (s : State) :
    (s.runState.pulsing = false ∧ tick s = { s with outputLevel := .low }) ∨
    (s.runState = .pulseFirst ∧ s.pulse1 ≤ s.firstCounter ∧ s.mode = .once ∧
      tick s = { s with runState := .viewOnce, outputLevel := .low }) ∨
    (s.runState = .pulseFirst ∧ s.pulse1 ≤ s.firstCounter ∧ s.mode ≠ .once ∧
      tick s = { s with runState := .pulseIdle, outputLevel := .high }) ∨
    (s.runState = .pulseFirst ∧ ¬ s.pulse1 ≤ s.firstCounter ∧
      tick s = { s with firstCounter := s.firstCounter + 1#16, outputLevel := .high }) ∨
    (s.runState = .pulseIdle ∧ s.idle ≤ s.idleCounter ∧ s.mode = .continuous ∧ tick s = restartSequence s) ∨
    (s.runState = .pulseIdle ∧ s.idle ≤ s.idleCounter ∧ s.mode ≠ .continuous ∧
      tick s = { s with runState := .pulseSecond, outputLevel := .low }) ∨
    (s.runState = .pulseIdle ∧ ¬ s.idle ≤ s.idleCounter ∧
      tick s = { s with idleCounter := s.idleCounter + 1#16, outputLevel := .low }) ∨
    (s.runState = .pulseSecond ∧ s.pulse2 ≤ s.secondCounter ∧
      tick s = { s with runState := .viewTwice, outputLevel := .high }) ∨
    (s.runState = .pulseSecond ∧ ¬ s.pulse2 ≤ s.secondCounter ∧
      tick s = { s with secondCounter := s.secondCounter + 1#16, outputLevel := .high }) := by
  have h1 := s.reached_iff .first
  have h2 := s.reached_iff .second
  have h3 := s.reached_iff .idle
  simp only [State.duration, State.counter] at h1 h2 h3
  unfold tick tickPulseFirst tickPulseIdle tickPulseSecond
  cases hr : s.runState <;> simp only [RunState.pulsing, reduceCtorEq, false_and, true_and, false_or, or_false]
  case pulseFirst =>
    by_cases hc : s.pulse1 ≤ s.firstCounter
    · by_cases hm : s.mode = .once <;> simp [h1.mpr hc, hc, hm]
    · rw [if_neg (fun e => hc (h1.mp e))]; exact .inr (.inr ⟨hc, by rw [← hr]; rfl⟩)
  case pulseIdle =>
    by_cases hc : s.idle ≤ s.idleCounter
    · by_cases hm : s.mode = .continuous <;> simp [h3.mpr hc, hc, hm]
    · rw [if_neg (fun e => hc (h3.mp e))]; exact .inr (.inr ⟨hc, by rw [← hr]; rfl⟩)
  case pulseSecond =>
    by_cases hc : s.pulse2 ≤ s.secondCounter
    · simp [h2.mpr hc, hc]
    · rw [if_neg (fun e => hc (h2.mp e))]; exact .inr ⟨hc, by rw [← hr]; rfl⟩

/-- The fields a TICK leaves alone. -/
theorem tick_frame (s : State) :
    tick s = { s with runState := (tick s).runState, outputLevel := (tick s).outputLevel,
                      firstCounter := (tick s).firstCounter, secondCounter := (tick s).secondCounter,
                      idleCounter := (tick s).idleCounter } := by
  rcases tick_cases s with h | h | h | h | h | h | h | h | h <;>
    ((first | rw [h.2] | rw [h.2.2] | rw [h.2.2.2]); try rfl)

@[simp] theorem tick_mode (s : State) : (tick s).mode = s.mode := by rw [tick_frame s]
@[simp] theorem tick_lpHandled (s : State) : (tick s).lpHandled = s.lpHandled := by rw [tick_frame s]
@[simp] theorem tick_auxPrev (s : State) : (tick s).auxPrev = s.auxPrev := by rw [tick_frame s]
@[simp] theorem tick_nvm (s : State) : (tick s).nvm = s.nvm := by rw [tick_frame s]
@[simp] theorem tick_inputs (s : State) : (tick s).inputs = s.inputs := by rw [tick_frame s]
@[simp] theorem tick_placed (s : State) : (tick s).placed = s.placed := by rw [tick_frame s]
@[simp] theorem tick_duration (s : State) (k : Index) : (tick s).duration k = s.duration k := by
  rw [tick_frame s]; cases k <;> rfl

/-! ### Core events -/

/-- Everything a START can do (`41_run_events.md` R80). -/
theorem startSequence_cases (s : State) :
    (s.runState.viewing = true ∧ startSequence s = { s.zeroCounters with runState := .pulseFirst }) ∨
    (s.runState.viewing = false ∧ startSequence s = s) := by
  unfold startSequence; cases s.runState.viewing <;> simp

/-- Everything a STOP can do (`41_run_events.md` R82). -/
theorem stopSequence_cases (s : State) :
    (s.runState.pulsing = true ∧ s.mode = .continuous ∧ stopSequence s = { s with runState := .viewContinuous }) ∨
    (¬ (s.runState.pulsing = true ∧ s.mode = .continuous) ∧ stopSequence s = s) := by
  unfold stopSequence; split
  · rename_i h; exact .inl ⟨h.1, h.2, rfl⟩
  · rename_i h; exact .inr ⟨h, rfl⟩

/-- Everything a CYCLEMODE can do (`41_run_events.md` R84). -/
theorem cycleMode_cases (s : State) :
    (s.runState.pulsing = true ∧ cycleMode s = s) ∨
    (s.runState.pulsing = false ∧ cycleMode s = { s with mode := s.mode.next, runState := s.mode.next.view }) := by
  unfold cycleMode; cases s.runState.pulsing <;> simp

/-- Everything a TOGGLEEDIT can do (`42_edit_events.md` R90 to R94). -/
theorem toggleEdit_cases (s : State) :
    (∃ rs slots, editMove s.runState s.mode = some (rs, slots) ∧
      toggleEdit s = { s.saveSlots slots with runState := rs }) ∨
    (editMove s.runState s.mode = none ∧ toggleEdit s = s) := by
  unfold toggleEdit
  cases h : editMove s.runState s.mode with
  | none => exact .inr ⟨rfl, rfl⟩
  | some p => exact .inl ⟨p.1, p.2, rfl, rfl⟩

/-- Everything an ADJUST can do (`42_edit_events.md` R95). -/
theorem adjust_cases (delta : Word) (s : State) :
    (∃ k, s.runState.editIndex? = some k ∧ adjust delta s = s.setDuration k (adjusted (s.duration k) delta)) ∨
    (s.runState.editIndex? = none ∧ adjust delta s = s) := by
  unfold adjust
  cases h : s.runState.editIndex? with
  | none => exact .inr ⟨rfl, rfl⟩
  | some k => exact .inl ⟨k, rfl, rfl⟩

/-- An Edit state is one that edits a Duration. -/
theorem RunState.editIndex?_isSome (rs : RunState) : rs.editIndex?.isSome = rs.editing := by
  cases rs <;> rfl

/-- The fields a START leaves alone. -/
theorem startSequence_frame (s : State) :
    startSequence s = { s with runState := (startSequence s).runState, firstCounter := (startSequence s).firstCounter,
                               secondCounter := (startSequence s).secondCounter,
                               idleCounter := (startSequence s).idleCounter } := by
  rcases startSequence_cases s with h | h <;> (rw [h.2]; try rfl)

/-- The fields a STOP leaves alone: all but RunState. -/
theorem stopSequence_frame (s : State) : stopSequence s = { s with runState := (stopSequence s).runState } := by
  rcases stopSequence_cases s with h | h
  · rw [h.2.2]
  · rw [h.2]

/-- The fields a CYCLEMODE leaves alone: all but Mode and RunState. -/
theorem cycleMode_frame (s : State) :
    cycleMode s = { s with mode := (cycleMode s).mode, runState := (cycleMode s).runState } := by
  rcases cycleMode_cases s with h | h <;> rw [h.2]

/-- A run of SAVEs changes the store alone. -/
theorem State.saveSlots_frame (s : State) (ks : List Index) : s.saveSlots ks = { s with nvm := (s.saveSlots ks).nvm } := by
  induction ks generalizing s with
  | nil => rfl
  | cons k ks ih => exact ih (s.saveSlot k)

/-- The fields a TOGGLEEDIT leaves alone: all but RunState and the store. -/
theorem toggleEdit_frame (s : State) :
    toggleEdit s = { s with runState := (toggleEdit s).runState, nvm := (toggleEdit s).nvm } := by
  rcases toggleEdit_cases s with ⟨rs, slots, -, h⟩ | h
  · rw [h, s.saveSlots_frame slots]
  · rw [h.2]

/-- The fields an ADJUST leaves alone: all but the Durations. -/
theorem adjust_frame (delta : Word) (s : State) :
    adjust delta s = { s with pulse1 := (adjust delta s).pulse1, pulse2 := (adjust delta s).pulse2,
                              idle := (adjust delta s).idle } := by
  rcases adjust_cases delta s with ⟨k, -, h⟩ | h
  · rw [h]; cases k <;> rfl
  · rw [h.2]

@[simp] theorem startSequence_mode (s : State) : (startSequence s).mode = s.mode := by rw [startSequence_frame s]
@[simp] theorem stopSequence_mode (s : State) : (stopSequence s).mode = s.mode := by rw [stopSequence_frame s]
@[simp] theorem toggleEdit_mode (s : State) : (toggleEdit s).mode = s.mode := by rw [toggleEdit_frame s]
@[simp] theorem adjust_mode (delta : Word) (s : State) : (adjust delta s).mode = s.mode := by rw [adjust_frame delta s]
@[simp] theorem adjust_runState (delta : Word) (s : State) : (adjust delta s).runState = s.runState := by
  rw [adjust_frame delta s]
@[simp] theorem startSequence_nvm (s : State) : (startSequence s).nvm = s.nvm := by rw [startSequence_frame s]
@[simp] theorem stopSequence_nvm (s : State) : (stopSequence s).nvm = s.nvm := by rw [stopSequence_frame s]
@[simp] theorem cycleMode_nvm (s : State) : (cycleMode s).nvm = s.nvm := by rw [cycleMode_frame s]
@[simp] theorem adjust_nvm (delta : Word) (s : State) : (adjust delta s).nvm = s.nvm := by rw [adjust_frame delta s]

@[simp] theorem startSequence_duration (s : State) (k : Index) : (startSequence s).duration k = s.duration k := by
  rw [startSequence_frame s]; cases k <;> rfl
@[simp] theorem stopSequence_duration (s : State) (k : Index) : (stopSequence s).duration k = s.duration k := by
  rw [stopSequence_frame s]; cases k <;> rfl
@[simp] theorem cycleMode_duration (s : State) (k : Index) : (cycleMode s).duration k = s.duration k := by
  rw [cycleMode_frame s]; cases k <;> rfl
@[simp] theorem toggleEdit_duration (s : State) (k : Index) : (toggleEdit s).duration k = s.duration k := by
  rw [toggleEdit_frame s]; cases k <;> rfl

/-! ### The clamped sum -/

/-- An adjusted Duration, as a number, is the clamped integer sum (`42_edit_events.md` R96). -/
theorem adjusted_toNat (x delta : Word) :
    ((adjusted x delta).toNat : Int) = clamp ((x.toNat : Int) + delta.toInt) 1 65535 := by
  unfold adjusted
  have h : 1 ≤ clamp ((x.toNat : Int) + delta.toInt) 1 65535 ∧ clamp ((x.toNat : Int) + delta.toInt) 1 65535 ≤ 65535 := by
    unfold clamp; split
    · omega
    · split <;> omega
  rw [BitVec.toNat_ofInt]
  show (((clamp ((x.toNat : Int) + delta.toInt) 1 65535) % (2 ^ 16 : Nat)).toNat : Int) = _
  omega

/-- An adjusted Duration is in range, so never 0. -/
theorem adjusted_range (x delta : Word) : 1 ≤ (adjusted x delta).toNat ∧ (adjusted x delta).toNat ≤ 65535 := by
  have h := adjusted_toNat x delta
  unfold clamp at h
  split at h
  · omega
  · split at h <;> omega

end Sys2Proof.Machine
end

