-- ==== Sys2Proof/Laws/PerInstr.lean ====
section
/-! SUPPORT. Per operation: its encoding has the pattern of its row of the opcode table (`30_encoding.md` R58). -/

namespace Sys2Proof.Laws.TableRow

/-- The word of an operation, whatever its operands, is in its row's format and has its row's fixed bits. -/
def Statement (i : Instr) : Prop := (rowOf i).hits (encode i) = true

/-- The fixed bits of an event word are its code. -/
theorem event_bits (code : BitVec 3) (arg : Word) : (eWord code arg).toNat &&& 0x70000 = code.toNat * 65536 := by
  have h : (eWord code arg &&& 0x70000#19) = eWord code 0#16 := by
    apply BitVec.eq_of_getLsbD_eq
    intro i hi
    rw [BitVec.getLsbD_and, eWord_getLsbD, eWord_getLsbD]
    interval_cases i <;> simp
  have e : (eWord code arg).toNat &&& 0x70000 = (eWord code 0#16).toNat := by
    rw [← h, BitVec.toNat_and]; rfl
  rw [e]
  clear h e
  revert code; decide

/-- The fixed bits of a poll sample are its button code. -/
theorem sample_bits (auxN : Bool) (btn : BitVec 3) (delta : Word) :
    (pWord auxN btn delta).toNat &&& 0x70000 = btn.toNat * 65536 := by
  have h : (pWord auxN btn delta &&& 0x70000#20) = pWord false btn 0#16 := by
    apply BitVec.eq_of_getLsbD_eq
    intro i hi
    rw [BitVec.getLsbD_and, pWord_getLsbD, pWord_getLsbD]
    interval_cases i <;> simp
  have e : (pWord auxN btn delta).toNat &&& 0x70000 = (pWord false btn 0#16).toNat := by
    rw [← h, BitVec.toNat_and]; rfl
  rw [e]
  clear h e
  revert btn; decide

theorem tick : Statement .tick := by unfold Statement; decide
theorem start : Statement .start := by unfold Statement; decide
theorem stop : Statement .stop := by unfold Statement; decide
theorem cycleMode : Statement .cycleMode := by unfold Statement; decide
theorem toggleEdit : Statement .toggleEdit := by unfold Statement; decide

theorem adjust (delta : Word) : Statement (.adjust delta) := by
  simp [Statement, Row.hits, rowOf, encode, Frame.format, Frame.bits, event_bits]

theorem pollOpen (auxN : Bool) (delta : Word) : Statement (.pollOpen auxN delta) := by
  simp [Statement, Row.hits, rowOf, encode, Frame.format, Frame.bits, sample_bits]

theorem pollClosed (auxN : Bool) (delta : Word) : Statement (.pollClosed auxN delta) := by
  simp [Statement, Row.hits, rowOf, encode, Frame.format, Frame.bits, sample_bits]

theorem pollPressed (auxN : Bool) (delta : Word) : Statement (.pollPressed auxN delta) := by
  simp [Statement, Row.hits, rowOf, encode, Frame.format, Frame.bits, sample_bits]

theorem pollHeld (auxN : Bool) (delta : Word) : Statement (.pollHeld auxN delta) := by
  simp [Statement, Row.hits, rowOf, encode, Frame.format, Frame.bits, sample_bits]

theorem pollReleased (auxN : Bool) (delta : Word) : Statement (.pollReleased auxN delta) := by
  simp [Statement, Row.hits, rowOf, encode, Frame.format, Frame.bits, sample_bits]

theorem pollClicked (auxN : Bool) (delta : Word) : Statement (.pollClicked auxN delta) := by
  simp [Statement, Row.hits, rowOf, encode, Frame.format, Frame.bits, sample_bits]

theorem pollDoubleClicked (auxN : Bool) (delta : Word) : Statement (.pollDoubleClicked auxN delta) := by
  simp [Statement, Row.hits, rowOf, encode, Frame.format, Frame.bits, sample_bits]

theorem load (k : BitVec 2) : Statement (.load k) := by unfold Statement; revert k; decide
theorem save (k : BitVec 2) : Statement (.save k) := by unfold Statement; revert k; decide
theorem reset : Statement .reset := by unfold Statement; decide

end Sys2Proof.Laws.TableRow
end

