-- ==== Sys2Proof/Laws/Poll.lean ====
section
/-! SUPPORT. The multiplexer: the one operation behind the seven POLLs, and what its steps leave alone. -/

namespace Sys2Proof.Machine

/-- A POLL operation is the poll of its button event. -/
theorem exec_pollInstr (btn : Button) (auxN : Bool) (delta : Word) (s : State) :
    exec (pollInstr btn auxN delta) s = .next (poll btn auxN delta s) := by
  cases btn <;> rfl

/-- Every POLL operation is the poll of some button event. -/
theorem isPoll_iff (i : Instr) : isPoll i = true ↔ ∃ btn auxN delta, i = pollInstr btn auxN delta := by
  constructor
  · intro h
    cases i with
    | pollOpen a d => exact ⟨.opened, a, d, rfl⟩
    | pollClosed a d => exact ⟨.closed, a, d, rfl⟩
    | pollPressed a d => exact ⟨.pressed, a, d, rfl⟩
    | pollHeld a d => exact ⟨.held, a, d, rfl⟩
    | pollReleased a d => exact ⟨.released, a, d, rfl⟩
    | pollClicked a d => exact ⟨.clicked, a, d, rfl⟩
    | pollDoubleClicked a d => exact ⟨.doubleClicked, a, d, rfl⟩
    | _ => cases h
  · rintro ⟨btn, a, d, rfl⟩; cases btn <;> rfl

/-- What every core event keeps, a channel's send keeps. -/
theorem send_keeps {P : State → Prop} (h : ∀ e s, P s → P (deliver e s)) (e : Option CoreEvent) {s : State} (hs : P s) :
    P (send e s) := by
  cases e with
  | none => exact hs
  | some e => exact h e s hs

/-- What every core event keeps and no detector bit bears on, a poll keeps. -/
theorem poll_keeps {P : State → Prop} (h : ∀ e s, P s → P (deliver e s))
    (hl : ∀ s b, P s → P { s with lpHandled := b }) (ha : ∀ s b, P s → P { s with auxPrev := b })
    (btn : Button) (auxN : Bool) (delta : Word) {s : State} (hs : P s) : P (poll btn auxN delta s) :=
  send_keeps h _ (ha _ _ (send_keeps h _ (hl _ _ (send_keeps h _ hs))))

/-- No core event writes OutputLevel, a detector, the later stimuli, or the placed word. -/
theorem deliver_frame (e : CoreEvent) (s : State) :
    (deliver e s).outputLevel = s.outputLevel ∧ (deliver e s).lpHandled = s.lpHandled ∧
      (deliver e s).auxPrev = s.auxPrev ∧ (deliver e s).inputs = s.inputs ∧
      (deliver e s).placed = s.placed := by
  cases e with
  | start => unfold deliver; rw [startSequence_frame s]; simp
  | stop => unfold deliver; rw [stopSequence_frame s]; simp
  | cycleMode => unfold deliver; rw [cycleMode_frame s]; simp
  | toggleEdit => unfold deliver; rw [toggleEdit_frame s]; simp
  | adjustValue d => unfold deliver; dsimp only; rw [adjust_frame d s]; simp

theorem send_frame (e : Option CoreEvent) (s : State) :
    (send e s).outputLevel = s.outputLevel ∧ (send e s).lpHandled = s.lpHandled ∧
      (send e s).auxPrev = s.auxPrev ∧ (send e s).inputs = s.inputs ∧
      (send e s).placed = s.placed := by
  cases e with
  | none => exact ⟨rfl, rfl, rfl, rfl, rfl⟩
  | some e => exact deliver_frame e s

/-- What a poll leaves in the level, the detectors and the model's own fields (`43_input_mux.md` R106 to R108). -/
theorem poll_frame (btn : Button) (auxN : Bool) (delta : Word) (s : State) :
    (poll btn auxN delta s).outputLevel = s.outputLevel ∧
      (poll btn auxN delta s).lpHandled = lpAfter btn s.lpHandled ∧
      (poll btn auxN delta s).auxPrev = auxPressed auxN ∧ (poll btn auxN delta s).inputs = s.inputs ∧
      (poll btn auxN delta s).placed = s.placed := by
  unfold poll auxStep buttonStep rotationStep
  simp [send_frame]

/-- The rotation moves neither RunState nor Mode. -/
@[simp] theorem rotationStep_runState (delta : Word) (s : State) : (rotationStep delta s).runState = s.runState := by
  unfold rotationStep rotationEvent; split <;> simp [send, deliver]

@[simp] theorem rotationStep_mode (delta : Word) (s : State) : (rotationStep delta s).mode = s.mode := by
  unfold rotationStep rotationEvent; split <;> simp [send, deliver]

@[simp] theorem rotationStep_nvm (delta : Word) (s : State) : (rotationStep delta s).nvm = s.nvm := by
  unfold rotationStep rotationEvent; split <;> simp [send, deliver]

/-- A click sends START, STOP or nothing (`43_input_mux.md` R103). -/
theorem clickEvent_cases (rs : RunState) (m : Mode) :
    clickEvent rs m = some .start ∨ clickEvent rs m = some .stop ∨ clickEvent rs m = none := by
  unfold clickEvent; split
  · simp
  · split <;> simp

/-- The auxiliary step stores nothing. -/
@[simp] theorem auxStep_nvm (auxN : Bool) (s : State) : (auxStep auxN s).nvm = s.nvm := by
  unfold auxStep auxEvent
  split
  · rcases clickEvent_cases s.runState s.mode with h | h | h <;> rw [h] <;> simp [send, deliver]
  · rfl

end Sys2Proof.Machine
end

