-- ==== Sys2Proof/Laws/Step.lean ====
section
/-! SUPPORT. What one step does, by the placed store word and the stimulus at the head of the list. -/

namespace Sys2Proof.Machine

theorem step_of_placed {s : State} {w : BitVec 3} (h : s.placed = some w) :
    step s = applyFrame (.s w) { s with placed := none } := by
  simp [step, applyNext, h]

theorem step_of_nil {s : State} (hp : s.placed = none) (h : s.inputs = []) : step s = .next s := by
  simp [step, applyNext, applyStimulus, hp, h]

theorem step_of_cons {s : State} {x : Stimulus} {rest : List Stimulus} (hp : s.placed = none) (h : s.inputs = x :: rest) :
    step s = applyFrames (stimulusFrames x) { s with inputs := rest } := by
  simp [step, applyNext, applyStimulus, hp, h]

theorem step_of_word {s : State} {x : Stimulus} {f : Frame} {rest : List Stimulus} (hp : s.placed = none)
    (h : s.inputs = x :: rest) (hf : stimulusFrames x = [f]) : step s = applyFrame f { s with inputs := rest } := by
  rw [step_of_cons hp h, hf]; exact applyFrames_one f _

/-- The stimulus of a word presents that word alone. -/
theorem stimulusFrames_of_stimulus? {f : Frame} {x : Stimulus} (h : f.stimulus? = some x) : stimulusFrames x = [f] := by
  cases f <;> cases h <;> rfl

/-- A property that depends neither on the later stimuli nor on the placed word, and that every operation keeps, is kept by every
step. -/
theorem step_keeps {P : State → Prop} (hin : ∀ s later, P s → P { s with inputs := later })
    (hpl : ∀ s, P s → P { s with placed := none })
    (hex : ∀ i s t, P s → exec i s = .next t → P t) {s t : State} (hs : P s) (ht : step s = .next t) : P t := by
  cases hp : s.placed with
  | some w =>
    rw [step_of_placed hp, ← applyFrames_one] at ht
    exact applyFrames_keeps (fun _ _ i _ => hex i) (hpl s hs) ht
  | none =>
    cases hx : s.inputs with
    | nil => rw [step_of_nil hp hx] at ht; cases ht; exact hs
    | cons x rest =>
      rw [step_of_cons hp hx] at ht
      exact applyFrames_keeps (fun _ _ i _ => hex i) (hin s rest hs) ht

/-- The words a clock cycle applies are a RESET alone, or a TICK and a poll sample, each perhaps. -/
theorem mem_cycleFrames {pins : Pins} {f : Frame} (h : f ∈ cycleFrames pins) :
    f = .r 0#1 ∨ f = .t 1#1 ∨ f = .p pins.pollSample := by
  unfold cycleFrames at h
  split at h
  · rcases List.mem_append.mp h with h | h <;> split at h <;> simp_all
  · simp_all

/-- Every poll sample is a POLL operation (`30_encoding.md` R57: button code 7 is Open). -/
theorem decodeP_operation (w : BitVec 20) : ∃ i, decode (.p w) = .operation i := by
  show ∃ i, decodeP w = .operation i
  unfold decodeP
  split <;> exact ⟨_, rfl⟩

/-- A run of one step more is a step and the rest of the run. -/
theorem run_succ (n : Nat) (s : State) :
    Host.Core.run Sys2Proof.core (n + 1) s = andThen (step s) (Host.Core.run Sys2Proof.core n) := by
  simp only [Host.Core.run]
  generalize ho : Sys2Proof.core.step s = o
  rw [show step s = o from ho]
  cases o <;> rfl

/-- A word that a stimulus presents is no store word, so what it selects is no micro-operation (`44_valuestore.md` R123). -/
theorem stimulus_not_micro {x : Stimulus} {f : Frame} {i : Instr} (hf : f ∈ stimulusFrames x)
    (hd : decode f = .operation i) : isMicro i = false := by
  have h : ∀ w, f ≠ .s w := by
    rintro w rfl
    cases x with
    | cycle pins => rcases mem_cycleFrames hf with h | h | h <;> cases h
    | _ => simp [stimulusFrames] at hf
  cases f with
  | s w => exact absurd rfl (h w)
  | t w => simp only [decode, decodeT] at hd; split at hd <;> cases hd; rfl
  | r w => simp only [decode, decodeR] at hd; split at hd <;> cases hd; rfl
  | e w => simp only [decode] at hd; unfold decodeE at hd; split at hd <;> cases hd <;> rfl
  | p w => simp only [decode] at hd; unfold decodeP at hd; split at hd <;> cases hd <;> rfl

/-- A word that is presented is the one the next step applies. -/
theorem step_present (s : State) (f : Frame) : step (s.present f) = applyFrame f { s with placed := none } := by
  cases f with
  | s w => exact step_of_placed (s := s.present (.s w)) rfl
  | t w => exact step_of_word (s := s.present (.t w)) rfl rfl rfl
  | e w => exact step_of_word (s := s.present (.e w)) rfl rfl rfl
  | p w => exact step_of_word (s := s.present (.p w)) rfl rfl rfl
  | r w => exact step_of_word (s := s.present (.r w)) rfl rfl rfl

end Sys2Proof.Machine
end

