-- ==== Sys2Proof/Tests/Slice0.lean ====
section
/-! SUPPORT. Tests: the spec's own words (`30_encoding.md` R58, R61) and vectors (`95_test_vectors.md`, by their ids), the ill-formed
operations, and for every statement with hypotheses a state and operands that meet them. Nothing here is copied from what the
model answers. -/

namespace Sys2Proof.Tests

open Sys2Proof.Machine

/-! ### Helpers -/

/-- The base state B0 in another RunState and Mode. -/
def inState (rs : RunState) (m : Mode) : State := { State.reset with runState := rs, mode := m }

/-- The same with Durations in the order pulse1, pulse2, idle. -/
def dur (p1 p2 g : Word) (s : State) : State := { s with pulse1 := p1, pulse2 := p2, idle := g }

/-- The same with counters in the order first, second, idle. -/
def cnt (c1 c2 cg : Word) (s : State) : State := { s with firstCounter := c1, secondCounter := c2, idleCounter := cg }

/-- The same with the line HIGH. -/
def high (s : State) : State := { s with outputLevel := .high }

/-- The same with the six bytes of the store written. -/
def store (b0 b1 b2 b3 b4 b5 : Byte) (s : State) : State :=
  let w (m : Memory) (a : Fin 6) (v : Byte) : Memory := Memory.write m a v
  { s with nvm := w (w (w (w (w (w s.nvm 0 b0) 1 b1) 2 b2) 3 b3) 4 b4) 5 b5 }

/-- Does one step that presents this word in `s` give `t`? -/
def gives (f : Frame) (s t : State) : Bool :=
  match step (s.present f) with
  | .next u => u == t
  | .fault _ => false
  | .refused _ => false

/-- Does one step that presents this clock cycle in `s` give `t`? -/
def cycleGives (pins : Pins) (s t : State) : Bool :=
  match step { s with inputs := .cycle pins :: s.inputs } with
  | .next u => u == t
  | .fault _ => false
  | .refused _ => false

/-- Does a list of operations, applied in `s`, give a state of which `p` holds? -/
def leads (is : List Instr) (s : State) (p : State → Bool) : Bool :=
  match execAll is s with
  | .next u => p u
  | .fault _ => false
  | .refused _ => false

/-! ### Well-formedness -/

/-- R54: k = 3 is reserved. -/
theorem test_load_slot3_illformed : (Instr.load 3#2).wellFormed = false := by decide

theorem test_save_slot3_illformed : (Instr.save 3#2).wellFormed = false := by decide

theorem test_slots_wellformed :
    ∀ k : BitVec 2, k ≠ 3#2 → (Instr.load k).wellFormed = true ∧ (Instr.save k).wellFormed = true := by decide

/-! ### Decoding: words of R58 and R61, bit by bit -/

theorem test_decode_tick : decode (.t 0b1#1) = .operation .tick := by decide

theorem test_decode_tick_stb_low : decode (.t 0b0#1) = .noOperation := by decide

theorem test_decode_start : decode (.e 0b0010000000000000000#19) = .operation .start := by decide

theorem test_decode_start_arg_ignored : decode (.e 0b0011010101010101011#19) = .operation .start := by decide

theorem test_decode_stop : decode (.e 0b0100000000000000000#19) = .operation .stop := by decide

theorem test_decode_cycleMode : decode (.e 0b0110000000000000000#19) = .operation .cycleMode := by decide

theorem test_decode_toggleEdit : decode (.e 0b1000000000000000000#19) = .operation .toggleEdit := by decide

theorem test_decode_adjust : decode (.e 0b1010000000000001010#19) = .operation (.adjust 10#16) := by decide

theorem test_decode_adjust_minus_one :
    decode (.e 0b1011111111111111111#19) = .operation (.adjust (BitVec.ofInt 16 (-1))) := by decide

theorem test_decode_event_codes_none : decode (.e 0b0000000000000000000#19) = .noOperation := by decide

theorem test_decode_event_code_six : decode (.e 0b1100000000000000000#19) = .noOperation := by decide

theorem test_decode_event_code_seven : decode (.e 0b1110000000000000000#19) = .noOperation := by decide

theorem test_decode_pollOpen : decode (.p 0b10000000000000000000#20) = .operation (.pollOpen true 0#16) := by decide

theorem test_decode_pollClosed :
    decode (.p 0b10011111111111111101#20) = .operation (.pollClosed true (BitVec.ofInt 16 (-3))) := by decide

theorem test_decode_pollPressed : decode (.p 0b00100000000000000000#20) = .operation (.pollPressed false 0#16) := by decide

theorem test_decode_pollHeld : decode (.p 0b10110000000000000101#20) = .operation (.pollHeld true 5#16) := by decide

theorem test_decode_pollReleased : decode (.p 0b11000000000000000000#20) = .operation (.pollReleased true 0#16) := by decide

theorem test_decode_pollClicked : decode (.p 0b01010000000000000000#20) = .operation (.pollClicked false 0#16) := by decide

theorem test_decode_pollDoubleClicked :
    decode (.p 0b01100000000000000000#20) = .operation (.pollDoubleClicked false 0#16) := by decide

theorem test_decode_btn_seven_is_open : decode (.p 0b11110000000000000000#20) = .operation (.pollOpen true 0#16) := by decide

theorem test_decode_load : decode (.s 0b010#3) = .operation (.load 2#2) := by decide

theorem test_decode_save : decode (.s 0b101#3) = .operation (.save 1#2) := by decide

theorem test_decode_slot_three : decode (.s 0b111#3) = .reservedSlot := by decide

theorem test_decode_reset : decode (.r 0b0#1) = .operation .reset := by decide

theorem test_decode_reset_released : decode (.r 0b1#1) = .noOperation := by decide

/-! ### Vectors of `95_test_vectors.md` -/

/-- T7: completion in Twice leaves the line HIGH. -/
theorem test_tick_T7 :
    gives (.t 1#1) (high (cnt 50 0 0 (inState .pulseFirst .twice)))
      (high (cnt 50 0 0 (inState .pulseIdle .twice))) = true := by decide

/-- T12: the Continuous restart. -/
theorem test_tick_T12 :
    gives (.t 1#1) (cnt 50 0 50 (inState .pulseIdle .continuous))
      (inState .pulseFirst .continuous) = true := by decide

/-- S2: START does not write OutputLevel. -/
theorem test_start_S2 :
    gives (.e 0x10000#19) (high (cnt 50 200 50 (inState .viewTwice .twice)))
      (high (inState .pulseFirst .twice)) = true := by decide

/-- S5: ignored while pulsing. -/
theorem test_start_S5 :
    gives (.e 0x10000#19) (cnt 50 0 10 (inState .pulseIdle .continuous))
      (cnt 50 0 10 (inState .pulseIdle .continuous)) = true := by decide

/-- X1. -/
theorem test_stop_X1 :
    gives (.e 0x20000#19) (high (cnt 7 0 0 (inState .pulseFirst .continuous)))
      (high (cnt 7 0 0 (inState .viewContinuous .continuous))) = true := by decide

/-- X4: Mode Twice. -/
theorem test_stop_X4 :
    gives (.e 0x20000#19) (high (cnt 50 7 50 (inState .pulseSecond .twice)))
      (high (cnt 50 7 50 (inState .pulseSecond .twice))) = true := by decide

/-- M3: wrap. -/
theorem test_cycleMode_M3 :
    gives (.e 0x30000#19) (inState .viewContinuous .continuous) (inState .viewOnce .once) = true := by decide

/-- M7: the session is abandoned, nothing stored. -/
theorem test_cycleMode_M7 :
    gives (.e 0x30000#19) (dur 50 200 80 (inState .editIdle .twice))
      (dur 50 200 80 (inState .viewContinuous .continuous)) = true := by decide

/-- E8: slot 1 keeps 200. -/
theorem test_toggleEdit_E8 :
    gives (.e 0x40000#19) (dur 60 300 1 (inState .editIdle .continuous))
      (store 0x3C 0x00 0xC8 0x00 0x01 0x00 (dur 60 300 1 (inState .viewContinuous .continuous))) = true := by decide

/-- E14: a pair with no row. -/
theorem test_toggleEdit_E14 :
    gives (.e 0x40000#19) (dur 75 201 80 (inState .editSecond .continuous))
      (dur 75 201 80 (inState .editSecond .continuous)) = true := by decide

/-- A6: the sum needs more than 16 bits. -/
theorem test_adjust_A6 :
    gives (.e 0x57FFF#19) (dur 40000 200 50 (inState .editFirst .once))
      (dur 65535 200 50 (inState .editFirst .once)) = true := by decide

/-- A2: EditIdle edits idle; -50 clamps to 1. -/
theorem test_adjust_A2 :
    gives (.e 0x5FF9C#19) (inState .editIdle .twice) (dur 50 200 1 (inState .editIdle .twice)) = true := by decide

/-- Q32: none; the press is used up. -/
theorem test_pollOpen_Q32 :
    gives (.p 0x00000#20) (cnt 50 0 3 (inState .pulseIdle .twice))
      { cnt 50 0 3 (inState .pulseIdle .twice) with auxPrev := true } = true := by decide

/-- Q38: least delta. -/
theorem test_pollOpen_Q38 :
    gives (.p 0x88000#20) (dur 100 200 50 (inState .editFirst .once))
      (dur 1 200 50 (inState .editFirst .once)) = true := by decide

/-- Q5: delta is processed whatever btn is. -/
theorem test_pollClosed_Q5 :
    gives (.p 0x9FFFD#20) (inState .editIdle .twice) (dur 50 200 47 (inState .editIdle .twice)) = true := by decide

/-- Q7: an auxiliary press stops a Continuous sequence. -/
theorem test_pollPressed_Q7 :
    gives (.p 0x20000#20) (high (cnt 3 0 0 (inState .pulseFirst .continuous)))
      { high (cnt 3 0 0 (inState .viewContinuous .continuous)) with auxPrev := true } = true := by decide

/-- Q12: rotation before button. -/
theorem test_pollHeld_Q12 :
    gives (.p 0xB0005#20) (inState .editFirst .once)
      { dur 55 200 50 (inState .viewTwice .twice) with lpHandled := true } = true := by decide

/-- Q36: three channels in sequence. -/
theorem test_pollHeld_Q36 :
    gives (.p 0x30000#20) (inState .viewContinuous .continuous)
      { inState .pulseFirst .once with lpHandled := true, auxPrev := true } = true := by decide

/-- Q13. -/
theorem test_pollReleased_Q13 :
    gives (.p 0xC0000#20) { inState .viewTwice .twice with lpHandled := true }
      (inState .viewTwice .twice) = true := by decide

/-- Q20: start and stop in one poll. -/
theorem test_pollClicked_Q20 :
    gives (.p 0x50000#20) (cnt 9 0 9 (inState .viewContinuous .continuous))
      { inState .viewContinuous .continuous with auxPrev := true } = true := by decide

/-- Q18: none. -/
theorem test_pollClicked_Q18 :
    gives (.p 0xD0000#20) (high (cnt 50 7 50 (inState .pulseSecond .twice)))
      (high (cnt 50 7 50 (inState .pulseSecond .twice))) = true := by decide

/-- Q23: the turn is saved with the confirmation. -/
theorem test_pollDoubleClicked_Q23 :
    gives (.p 0xE0005#20) (inState .editFirst .once)
      (store 0x37 0x00 0xC8 0x00 0x32 0x00 (dur 55 200 50 (inState .viewOnce .once))) = true := by decide

/-- Q34: the press starts a sequence from the state step 2 left. -/
theorem test_pollDoubleClicked_Q34 :
    gives (.p 0x60000#20) (inState .editFirst .once)
      { inState .pulseFirst .once with auxPrev := true } = true := by decide

/-- L2: zero gives the default, written back. -/
theorem test_load_L2 :
    gives (.s 0b001#3) (store 0 0 0 0 0 0 (dur 7 7 7 State.reset))
      (store 0 0 0xC8 0 0 0 (dur 7 200 7 State.reset)) = true := by decide

/-- L6: little-endian. -/
theorem test_load_L6 :
    gives (.s 0b000#3) (store 0 1 0 0 0 0 (dur 7 7 7 State.reset))
      (store 0 1 0 0 0 0 (dur 256 7 7 State.reset)) = true := by decide

/-- W2. -/
theorem test_save_W2 :
    gives (.s 0b101#3) (store 0xAA 0xAA 0xAA 0xAA 0xAA 0xAA (dur 50 300 50 State.reset))
      (store 0xAA 0xAA 0x2C 0x01 0xAA 0xAA (dur 50 300 50 State.reset)) = true := by decide

/-- W5: low byte first. -/
theorem test_save_W5 :
    gives (.s 0b100#3) (store 0xAA 0xAA 0xAA 0xAA 0xAA 0xAA (dur 4660 200 50 State.reset))
      (store 0x34 0x12 0xAA 0xAA 0xAA 0xAA (dur 4660 200 50 State.reset)) = true := by decide

/-- Z4: reset in mid-sequence. -/
theorem test_reset_Z4 :
    gives (.r 0#1) { high (store 0x3C 0 0x2C 1 1 0 (cnt 60 17 1 (dur 60 300 1 (inState .pulseSecond .twice)))) with lpHandled := true, auxPrev := true }
      (store 0x3C 0 0x2C 1 1 0 (dur 60 300 1 State.reset)) = true := by decide

/-- Z6: the middle slot is defaulted. -/
theorem test_reset_Z6 :
    gives (.r 0#1) (store 0x10 0x27 0 0 1 0 State.reset)
      (store 0x10 0x27 0xC8 0 1 0 (dur 10000 200 1 State.reset)) = true := by decide

/-! ### One clock cycle, and the host's table words -/

/-- Program P4 of section 3: a tick and a click in one clock cycle, TICK first. -/
theorem test_cycle_P4 :
    cycleGives ⟨true, true, true, 0xD0000#20⟩ { high (cnt 1 0 0 (dur 1 1 1 (inState .pulseFirst .once))) with lpHandled := true }
      { dur 1 1 1 (inState .pulseFirst .once) with lpHandled := true } = true := by decide

/-- D21: a strobe while `rst_n` is 0 is not applied. -/
theorem test_cycle_in_reset :
    cycleGives ⟨false, true, true, 0xD0000#20⟩ (high (inState .pulseFirst .once)) State.reset = true := by decide

theorem test_table_words :
    decodeTableWord 8 1 = some .tick ∧ decodeTableWord 24 0x10000 = some .start ∧
      decodeTableWord 24 0x50000 = some (.adjust 0#16) ∧ decodeTableWord 24 0 = some (.pollOpen false 0#16) ∧
      decodeTableWord 24 0x90000 = some (.pollClosed true 0#16) ∧ decodeTableWord 8 4 = some (.save 0#2) ∧
      decodeTableWord 8 0 = some .reset ∧ decodeTableWord 3 0 = some (.load 0#2) ∧
      decodeTableWord 20 0x10000 = some (.pollClosed false 0#16) := by decide

theorem test_withFetchWord : step (State.reset.withFetchWord 24 0x10000) = exec .start State.reset := rfl

theorem test_withFetchWord_store_word : step (State.reset.withFetchWord 8 4) = exec (.save 0#2) State.reset := rfl

/-! ### Witnesses: the hypotheses of each statement are met -/

theorem witness_DecodeOfEncodeIsIdentity :
    (Instr.load 2#2).wellFormed = true ∧ (Instr.save 0#2).wellFormed = true ∧
      (Instr.adjust (BitVec.ofInt 16 (-32768))).wellFormed = true ∧
      (Instr.pollHeld false 65535#16).wellFormed = true := by decide

theorem witness_EncodeOfDecodeIsTheWord :
    decode (.e (eWord 3#3 9#16)) = .operation .cycleMode ∧ eCode (eWord 3#3 9#16) ≠ 5#3 ∧
      decode (.e (eWord 5#3 9#16)) = .operation (.adjust 9#16) ∧ eCode (eWord 5#3 9#16) = 5#3 ∧
      decode (.p (pWord true 7#3 9#16)) = .operation (.pollOpen true 9#16) ∧ pBtn (pWord true 7#3 9#16) = 7#3 ∧
      decode (.p (pWord true 6#3 9#16)) = .operation (.pollDoubleClicked true 9#16) ∧
      decode (.s 0#3) = .operation (.load 0#2) ∧ decode (.t 1#1) = .operation .tick ∧
      decode (.r 0#1) = .operation .reset := by decide

theorem witness_WordHasItsRowAlone :
    decode (.p 0xF0000#20) = .operation (.pollOpen true 0#16) ∧ (Frame.p 0xF0000#20).format = .p ∧
      ((Frame.p 0xF0000#20).bits / 65536) % 8 = 7 ∧ decode (.p 0x80000#20) = .operation (.pollOpen true 0#16) ∧
      ((Frame.p 0x80000#20).bits / 65536) % 8 ≠ 7 := by decide

theorem witness_ReservedWordsDoNotTrap :
    (Instr.save 1#2).wellFormed = true ∧ encode (.save 1#2) ≠ .s (sWord true 3#2) := by decide

theorem witness_RegisterCodes :
    RunState.ofCode? 0b0110#4 = some .pulseIdle ∧ RunState.ofCode? 0b0111#4 = none ∧ RunState.ofCode? 0b1100#4 = none ∧
      Mode.ofCode? 3#2 = none := by decide

theorem witness_StepRunsDecodedWord :
    ({ State.reset with inputs := [.t 1#1] } : State).placed = none ∧ (Frame.t 1#1).stimulus? = some (.t 1#1) ∧
      ({ State.reset with inputs := [.t 1#1] } : State).inputs = .t 1#1 :: [] ∧ decode (.t 1#1) = .operation .tick ∧
      ({ State.reset with placed := some 4#3 } : State).placed = some 4#3 ∧
      decode (.s 4#3) = .operation (.save 0#2) := by decide

theorem witness_StepOfNoOperation :
    ({ State.reset with inputs := [.e 0#19] } : State).inputs = .e 0#19 :: [] ∧ State.reset.placed = none ∧
      (Frame.e 0#19).stimulus? = some (.e 0#19) ∧ decode (.e 0#19) = .noOperation ∧ State.reset.inputs = [] := by decide

/-- The pin values of the five clauses are free in the sample. -/
theorem witness_StepAppliesClockCycle :
    decode (.p (Pins.mk true true true 0xD0000#20).pollSample) = .operation (.pollClicked true 0#16) ∧
      decode (.p (Pins.mk false true false 0#20).pollSample) = .operation (.pollOpen false 0#16) ∧
      ({ State.reset with inputs := [.cycle (Pins.mk true true true 0xD0000#20)] } : State).placed = none ∧
      ({ State.reset with inputs := [.cycle (Pins.mk true true true 0xD0000#20)] } : State).inputs = .cycle (Pins.mk true true true 0xD0000#20) :: [] := by decide

theorem witness_RunAppliesOperationsInOrder :
    (∀ i ∈ [Instr.start, .tick, .adjust 9#16, .pollClicked false 5#16, .reset], isMicro i = false) ∧
      State.reset.placed = none := by decide

theorem witness_OperationsIgnoreLaterInputs :
    ∃ t, exec .start State.reset = .next t ∧ t.runState = .pulseFirst := ⟨_, rfl, rfl⟩

theorem witness_WellFormedOperationsComplete : (Instr.load 0#2).wellFormed = true ∧ Instr.tick.wellFormed = true := by decide

theorem witness_ReservedSlotIsRefused :
    ({ State.reset with placed := some (sWord true 3#2) } : State).placed = some (sWord true 3#2) := by decide

theorem witness_EveryRunGoesOn :
    ({ inState .editFirst .once with inputs := [.p 0xE0000#20, .r 0#1] } : State).placed = none ∧
      ∀ i ∈ [Instr.tick, .pollClicked true 0#16], i ≠ .reset ∧ i ≠ .toggleEdit ∧
      ∀ auxN delta, i ≠ .pollDoubleClicked auxN delta := ⟨rfl, by simp⟩

/-- The counter at and just below the Duration. -/
theorem witness_TickInPulseFirst :
    (inState .pulseFirst .once).runState = .pulseFirst ∧
      (cnt 50 0 0 (inState .pulseFirst .once)).pulse1 ≤ (cnt 50 0 0 (inState .pulseFirst .once)).firstCounter ∧
      (inState .pulseFirst .once).mode = .once ∧ (inState .pulseFirst .twice).mode ≠ .once ∧
      (cnt 49 0 0 (inState .pulseFirst .once)).firstCounter < (cnt 49 0 0 (inState .pulseFirst .once)).pulse1 := by decide

theorem witness_TickInPulseIdle :
    (inState .pulseIdle .continuous).runState = .pulseIdle ∧
      (cnt 50 0 50 (inState .pulseIdle .continuous)).idle ≤ (cnt 50 0 50 (inState .pulseIdle .continuous)).idleCounter ∧
      (inState .pulseIdle .continuous).mode = .continuous ∧ (inState .pulseIdle .twice).mode ≠ .continuous ∧
      (cnt 50 0 49 (inState .pulseIdle .twice)).idleCounter < (cnt 50 0 49 (inState .pulseIdle .twice)).idle := by decide

theorem witness_TickInPulseSecond :
    (inState .pulseSecond .twice).runState = .pulseSecond ∧
      (cnt 50 200 50 (inState .pulseSecond .twice)).pulse2 ≤ (cnt 50 200 50 (inState .pulseSecond .twice)).secondCounter ∧
      (cnt 50 199 50 (inState .pulseSecond .twice)).secondCounter < (cnt 50 199 50 (inState .pulseSecond .twice)).pulse2 := by decide

theorem witness_TicksOutsideASequence :
    (high (inState .viewTwice .twice)).runState.pulsing = false ∧
      (inState .editIdle .twice).runState.pulsing = false := by decide

theorem witness_TickCountsTheActiveCounter :
    ∃ t, exec .tick (inState .pulseFirst .once) = .next t ∧ t.firstCounter = 1#16 := ⟨_, rfl, rfl⟩

theorem witness_TickCountsTheActiveCounter_restart :
    ∃ t, exec .tick (cnt 50 0 50 (inState .pulseIdle .continuous)) = .next t ∧ t.idleCounter = 0#16 := ⟨_, rfl, rfl⟩

theorem witness_TickWritesTheLevel :
    ∃ t, exec .tick (inState .pulseSecond .twice) = .next t ∧ t.outputLevel = .high := ⟨_, rfl, rfl⟩

theorem witness_OnceSequence : State.reset.runState.viewing = true ∧ State.reset.mode = .once := by decide

theorem witness_TwiceSequence :
    (inState .viewTwice .twice).runState.viewing = true ∧ (inState .viewTwice .twice).mode = .twice ∧
      50 + 50 + 1 = (inState .viewTwice .twice).pulse1.toNat + (inState .viewTwice .twice).idle.toNat + 1 := by decide

theorem witness_ContinuousSequence :
    (inState .viewContinuous .continuous).runState.viewing = true ∧
      (inState .viewContinuous .continuous).mode = .continuous ∧
      102 = (inState .viewContinuous .continuous).pulse1.toNat + (inState .viewContinuous .continuous).idle.toNat + 2 ∧
      101 < 102 := by decide

theorem witness_SequenceLengthUnderEvents :
    (dur 1 1 1 State.reset).runState.viewing = true ∧ (dur 1 1 1 State.reset).mode = .once ∧
      2 = (dur 1 1 1 State.reset).pulse1.toNat + 1 ∧
      (∀ i ∈ [Instr.tick, .stop, .pollClicked true 0#16], i = .tick ∨ isCore i = true ∨ isPoll i = true) ∧
      [Instr.tick, .stop, .pollClicked true 0#16].count .tick + 1 = 2 := by decide

/-- Both clauses run: one TICK short of the end, and at it (vector TS1). -/
theorem witness_SequenceLengthUnderEvents_runs :
    leads [.start, .tick, .stop, .pollClicked true 0#16] (dur 1 1 1 State.reset) (fun t => t.runState.pulsing && t.mode == .once) = true ∧
      leads [.start, .tick, .stop, .pollClicked true 0#16, .tick] (dur 1 1 1 State.reset) (fun t => t.runState == .viewOnce) = true := by decide

/-- Vector TS3. -/
theorem witness_SequenceLengthUnderEvents_twice :
    leads (.start :: List.replicate 6 .tick) (dur 1 1 1 (inState .viewTwice .twice)) (fun t => t.runState == .viewTwice) = true ∧
      6 = (dur 1 1 1 (inState .viewTwice .twice)).pulse1.toNat + (dur 1 1 1 (inState .viewTwice .twice)).idle.toNat + (dur 1 1 1 (inState .viewTwice .twice)).pulse2.toNat + 3 := by decide

theorem witness_StartResult :
    State.reset.runState.viewing = true ∧ (inState .editFirst .once).runState.viewing = false := by decide

theorem witness_StopResult :
    (inState .pulseIdle .continuous).runState.pulsing = true ∧ (inState .pulseIdle .continuous).mode = .continuous ∧
      ¬ ((inState .pulseFirst .once).runState.pulsing = true ∧ (inState .pulseFirst .once).mode = .continuous) := by decide

theorem witness_CycleModeResult :
    (inState .editIdle .twice).runState.pulsing = false ∧ (inState .pulseIdle .twice).runState.pulsing = true := by decide

theorem witness_ModeOrderIsCyclic : State.reset.runState = State.reset.mode.view := by decide

theorem witness_SequenceShutsOutEvents :
    (inState .pulseFirst .twice).runState.pulsing = true ∧ isCore .stop = true ∧
      (inState .pulseFirst .twice).mode ≠ .continuous ∧ isCore (.adjust 3#16) = true ∧ isPoll (.pollHeld true 0#16) = true ∧
      (Instr.start ≠ .stop ∨ (inState .pulseFirst .continuous).mode ≠ .continuous) := by decide

theorem witness_ToggleEditStores :
    Memory.wf (dur 60 300 1 (inState .editIdle .continuous)).nvm ∧ Index.idle ∈ confirmedSlots .editIdle .continuous ∧
      confirmedSlots .editFirst .twice = [] ∧
      ∀ a : NvmAddr, a = lowAddr .second ∨ a = highAddr .second → ∀ k ∈ confirmedSlots .editIdle .continuous, a ≠ lowAddr k ∧
      a ≠ highAddr k := by decide

theorem witness_EditSessionStoresItsTurns :
    Memory.wf State.reset.nvm ∧ State.reset.runState = .viewOnce ∧ State.reset.mode = .once ∧
      (inState .viewContinuous .continuous).runState = .viewContinuous ∧
      (inState .viewContinuous .continuous).mode = .continuous ∧ (inState .viewTwice .twice).runState = .viewTwice ∧
      (inState .viewTwice .twice).mode = .twice := by decide

theorem witness_AdjustResult :
    (inState .editFirst .once).runState = .editFirst ∧ (inState .editSecond .twice).runState = .editSecond ∧
      (inState .editIdle .twice).runState = .editIdle ∧ (inState .pulseFirst .once).runState.editing = false := by decide

/-- Both edges of the range from both sides (vectors A9, A10, A14, A15). -/
theorem witness_AdjustArithmetic :
    (inState .editFirst .once).runState.editIndex? = some .first ∧
      (((inState .editFirst .once).duration .first).toNat : Int) + (BitVec.ofInt 16 (-50)).toInt < 1 ∧
      1 ≤ (((inState .editFirst .once).duration .first).toNat : Int) + (BitVec.ofInt 16 (-49)).toInt ∧
      (((dur 32768 200 50 (inState .editFirst .once)).duration .first).toNat : Int) + (32767#16).toInt ≤ 65535 ∧
      65535 < (((dur 32769 200 50 (inState .editFirst .once)).duration .first).toNat : Int) + (32767#16).toInt := by decide

theorem witness_ClampProperties :
    ((1 : Int) ≤ 65535) ∧ ((0 : Int) < 1) ∧ ((65535 : Int) < 65536) ∧ ((1 : Int) ≤ 1) := by decide

theorem witness_ClickResolution :
    State.reset.runState.viewing = true ∧ (inState .pulseFirst .continuous).runState.pulsing = true ∧
      (inState .pulseFirst .continuous).mode = .continuous ∧ (inState .pulseFirst .once).mode ≠ .continuous ∧
      (inState .editFirst .once).runState.editing = true ∧ clickEvent .editFirst .once = none ∧
      clickEvent .pulseSecond .twice = none := by decide

theorem witness_MultiplexerSendsWhatIsAccepted :
    legalPair .pulseFirst .once = true ∧ buttonEvent .held (inState .pulseFirst .once) = some .cycleMode ∧
      accepts .cycleMode (inState .pulseFirst .once) = false ∧ legalPair .editFirst .once = true ∧
      rotationEvent 5#16 (inState .editFirst .once) = some (.adjustValue 5#16) ∧ auxEvent false State.reset = some .start ∧
      legalPair State.reset.runState State.reset.mode = true := by decide

theorem witness_LongPressFiresOncePerHold :
    ({ State.reset with lpHandled := true } : State).lpHandled = true ∧
      (∀ i ∈ [Instr.tick, .pollHeld true 0#16], i = .tick ∨ isPoll i = true) ∧
      (∀ i ∈ [Instr.tick, .pollHeld true 0#16], ∀ auxN delta, i ≠ .pollReleased auxN delta) ∧
      leads [.tick, .pollHeld true 0#16] { State.reset with lpHandled := true } (fun t => t.mode == .once && t.lpHandled) = true := ⟨rfl, by decide, by simp, by decide⟩

theorem witness_AuxiliaryFiresOncePerPress :
    ({ inState .pulseFirst .continuous with auxPrev := true } : State).auxPrev = true ∧
      ({ inState .pulseFirst .continuous with auxPrev := true } : State).runState.editing = false := by decide

theorem witness_PollStores :
    Memory.wf (inState .editSecond .twice).nvm ∧
      confirmedSlots (inState .editSecond .twice).runState (inState .editSecond .twice).mode = [.first, .second, .idle] ∧
      Button.clicked ≠ .doubleClicked ∧
      confirmedSlots (inState .editFirst .once).runState (inState .editFirst .once).mode = [.first] := by decide

theorem witness_PollStores_runs :
    ∃ t, exec (pollInstr .doubleClicked true 5#16) (inState .editFirst .once) = .next t := ⟨_, rfl⟩

theorem witness_StoreReadsWhatWasWritten :
    Memory.wf (store 0xAA 0 0xC8 1 0 0x80 State.reset).nvm ∧ lowAddr .first ≠ lowAddr .idle ∧
      lowAddr .first ≠ highAddr .idle := by decide

theorem witness_LoadRejectsOnlyZero :
    Memory.wf (store 0 0 0xFF 0xFF 0 0 State.reset).nvm ∧ Index.ofBits? 1#2 = some .second ∧
      memRead (store 0 0 0xFF 0xFF 0 0 State.reset).nvm .second ≠ 0#16 ∧
      memRead (store 0 0 0xFF 0xFF 0 0 State.reset).nvm .first = 0#16 ∧ Index.ofBits? 0#2 = some .first := by decide

theorem witness_LoadRejectsOnlyZero_runs :
    ∃ t, exec (.load 1#2) (store 0 0 0xFF 0xFF 0 0 State.reset) = .next t ∧ t.pulse2 = 65535#16 := ⟨_, rfl, by decide⟩

theorem witness_SaveResult : Memory.wf State.reset.nvm ∧ Index.ofBits? 2#2 = some .idle := by decide

theorem witness_SavedValueSurvivesResets :
    Memory.wf State.reset.nvm ∧ Index.ofBits? 2#2 = some .idle ∧ (dur 1 2 3 State.reset).duration .idle ≠ 0#16 ∧
      leads (.save 2#2 :: (List.replicate 2 .reset ++ [.load 2#2])) (dur 1 2 3 State.reset) (fun t => t.idle == 3#16) = true ∧
      leads (.save 2#2 :: List.replicate 1 .reset) (dur 1 2 3 State.reset) (fun t => t.idle == 3#16) = true := by decide

theorem witness_ResetResult :
    Memory.wf (store 0 0 0x2C 1 0 0 (inState .pulseFirst .once)).nvm ∧
      memRead (store 0 0 0x2C 1 0 0 (inState .pulseFirst .once)).nvm .second ≠ 0#16 ∧
      memRead (store 0 0 0x2C 1 0 0 (inState .pulseFirst .once)).nvm .first = 0#16 := by decide

theorem witness_OnlyTheStoreSurvivesReset :
    (dur 9 9 9 (inState .editFirst .twice)).placed = State.reset.placed ∧
      (dur 9 9 9 (inState .editFirst .twice)).nvm = State.reset.nvm ∧
      (dur 9 9 9 (inState .editFirst .twice)).inputs = State.reset.inputs ∧
      dur 9 9 9 (inState .editFirst .twice) ≠ State.reset := by decide

/-- A state in mid-sequence with a store of its own and a TICK to come has the invariant. -/
theorem witness_StepKeepsInvariant :
    State.Inv ({ store 0x3C 0 0x2C 1 1 0 (cnt 60 17 1 (dur 60 300 1 (inState .pulseSecond .twice))) with
      inputs := [.t 1#1] }) :=
  ⟨rfl, fun k => by cases k <;> decide, by decide⟩

theorem witness_StepKeepsInvariant_steps :
    ∃ t, step { store 0x3C 0 0x2C 1 1 0 (cnt 60 17 1 (dur 60 300 1 (inState .pulseSecond .twice))) with
      inputs := [.t 1#1] } = .next t ∧ t.secondCounter = 18#16 := ⟨_, rfl, rfl⟩

theorem witness_ResetEstablishesInvariant :
    Memory.wf (store 0 0 0x2C 1 0 0 State.reset).nvm ∧ ∃ t, exec .reset (store 0 0 0x2C 1 0 0 State.reset) = .next t :=
  ⟨by decide, _, rfl⟩

/-- The counter one below its Duration, with a TICK to come. -/
theorem witness_StepKeepsCountersBounded :
    (inState .pulseFirst .once).placed = none ∧
      State.countersBounded { cnt 49 0 0 (inState .pulseFirst .once) with inputs := [.t 1#1] } ∧
      ∃ t, step { cnt 49 0 0 (inState .pulseFirst .once) with inputs := [.t 1#1] } = .next t ∧
        t.firstCounter = 50#16 :=
  ⟨rfl, fun _ k => by cases k <;> decide, _, rfl, rfl⟩

theorem witness_RunStateTransfers :
    isPoll .tick = false ∧ Instr.tick ≠ .reset ∧
      transferRow .tick (cnt 50 0 0 (inState .pulseFirst .once)) = some (.viewOnce, .once) ∧
      transferRow .tick (cnt 49 0 0 (inState .pulseFirst .once)) = none ∧
      transferRow .toggleEdit (inState .editSecond .twice) = some (.viewTwice, .twice) := by decide

theorem witness_RunStateTransfers_runs :
    ∃ t, exec .tick (cnt 50 0 0 (inState .pulseFirst .once)) = .next t ∧
      (t.runState, t.mode) = (.viewOnce, .once) := ⟨_, rfl, rfl⟩

theorem witness_IgnoredExactlyWhenNotAccepted :
    accepts .toggleEdit (inState .editSecond .continuous) = false ∧ accepts .stop (inState .pulseFirst .continuous) = true ∧
      (∀ delta, CoreEvent.stop ≠ .adjustValue delta) ∧
      accepts (.adjustValue 1#16) (inState .editFirst .once) = true := ⟨rfl, rfl, by simp, rfl⟩

/-- A turn that the clamp undoes (vector A4), and one it does not. -/
theorem witness_IgnoredExactlyWhenNotAccepted_adjust :
    clamp ((dur 65535 200 50 (inState .editFirst .once)).pulse1.toNat + (1#16).toInt) 1 65535 = (dur 65535 200 50 (inState .editFirst .once)).pulse1.toNat ∧
      clamp ((dur 65534 200 50 (inState .editFirst .once)).pulse1.toNat + (1#16).toInt) 1 65535 ≠ (dur 65534 200 50 (inState .editFirst .once)).pulse1.toNat := by decide

theorem witness_WhoWritesWhat :
    isCore .cycleMode = true ∧ isPoll (.pollHeld true 0#16) = true ∧ ∃ t, exec (.pollHeld true 0#16) State.reset = .next t ∧
      t.mode ≠ State.reset.mode ∧ t.lpHandled ≠ State.reset.lpHandled := ⟨rfl, rfl, _, rfl, by decide, by decide⟩

end Sys2Proof.Tests
end

section
/-! SUPPORT. The scope's arithmetic and order: the clamp (`00_scope.md` R4), the cycle of the Modes (R7), and CYCLEMODE on a View state
that matches Mode (`41_run_events.md` R84). -/

namespace Sys2Proof.Machine

/-! ### The clamp (`00_scope.md` R4) -/

theorem clamp_of_lt {v lo : Int} (h : v < lo) (hi : Int) : clamp v lo hi = lo := if_pos h

theorem clamp_of_gt {v lo hi : Int} (hle : lo ≤ hi) (h : hi < v) : clamp v lo hi = hi := by
  rw [clamp, if_neg (by omega), if_pos h]

theorem clamp_of_mem {v lo hi : Int} (hlo : lo ≤ v) (hhi : v ≤ hi) : clamp v lo hi = v := by
  rw [clamp, if_neg (by omega), if_neg (by omega)]

/-- The clamp is in range: one bound below and above, the value itself between them. -/
theorem clamp_range (v : Int) {lo hi : Int} (hle : lo ≤ hi) : lo ≤ clamp v lo hi ∧ clamp v lo hi ≤ hi := by
  rcases lt_or_ge v lo with h | hlo
  · rw [clamp_of_lt h]; exact ⟨le_rfl, hle⟩
  · rcases lt_or_ge hi v with h | hhi
    · rw [clamp_of_gt hle h]; exact ⟨hle, le_rfl⟩
    · rw [clamp_of_mem hlo hhi]; exact ⟨hlo, hhi⟩

/-- Clamping again changes nothing, because the first clamp is already in range. -/
theorem clamp_clamp (v : Int) {lo hi : Int} (hle : lo ≤ hi) : clamp (clamp v lo hi) lo hi = clamp v lo hi :=
  clamp_of_mem (clamp_range v hle).1 (clamp_range v hle).2

/-- Settles O37: each clause is a lemma about the clamp; idempotence follows from its range. -/
theorem clampProperties : Obligations.ClampProperties := fun v _ hi hle =>
  ⟨fun h => clamp_of_lt h hi, clamp_of_gt hle, clamp_of_mem, clamp_clamp v hle, clamp_range v hle⟩

/-! ### The cycle of the Modes (`00_scope.md` R7, `41_run_events.md` R84) -/

@[simp] theorem Mode.next_next_next (m : Mode) : m.next.next.next = m := by cases m <;> rfl

@[simp] theorem Mode.view_pulsing (m : Mode) : m.view.pulsing = false := by cases m <;> rfl

/-- From a View state that matches Mode, CYCLEMODE steps to the next Mode and its View state, which match again. -/
theorem cycleMode_of_view {s : State} (h : s.runState = s.mode.view) :
    cycleMode s = { s with mode := s.mode.next, runState := s.mode.next.view } := by
  rcases cycleMode_cases s with ⟨hp, -⟩ | ⟨-, hs⟩
  · simp [h] at hp
  · exact hs

/-- Three CYCLEMODEs from a matching View state come round to the same state. -/
theorem cycleMode_thrice_of_view {s : State} (h : s.runState = s.mode.view) :
    cycleMode (cycleMode (cycleMode s)) = s := by
  simp only [cycleMode_of_view, h, Mode.next_next_next]
  simp only [← h]

/-- Settles O29: the order and the views are R7's tables; three CYCLEMODEs each meet a matching View state, and `next` has period
three. -/
theorem modeOrderIsCyclic : Obligations.ModeOrderIsCyclic := by
  refine ⟨rfl, rfl, rfl, rfl, rfl, rfl, fun s h => ?_⟩
  simp only [execAll_cons, execAll_nil, exec_cycleMode, andThen_next, cycleMode_thrice_of_view h]

end Sys2Proof.Machine
end

section
/-! SUPPORT. What every operation keeps, by the context it comes from: TICK, RESET, the store micro-operations, the core events and
the polls. -/

namespace Sys2Proof.Machine

/-! ### The contexts of an operation -/

/-- Every operation comes from one of the five contexts. -/
theorem instr_context (i : Instr) :
    i = .tick ∨ i = .reset ∨ isMicro i = true ∨ isCore i = true ∨ isPoll i = true := by
  cases i <;> simp [isMicro, isCore, isPoll]

/-- The operation of a core event delivers that event. -/
theorem exec_coreInstr (e : CoreEvent) (s : State) : exec e.instr s = .next (deliver e s) := by
  cases e <;> rfl

/-- Every core operation is that of some core event. -/
theorem isCore_iff (i : Instr) : isCore i = true ↔ ∃ e, i = CoreEvent.instr e := by
  constructor
  · intro h
    cases i with
    | start => exact ⟨.start, rfl⟩
    | stop => exact ⟨.stop, rfl⟩
    | cycleMode => exact ⟨.cycleMode, rfl⟩
    | toggleEdit => exact ⟨.toggleEdit, rfl⟩
    | adjust delta => exact ⟨.adjustValue delta, rfl⟩
    | _ => cases h
  · rintro ⟨e, rfl⟩; cases e <;> rfl

/-- A LOAD that answers a next state loads some slot (`44_valuestore.md` R120). -/
theorem exec_load_eq_next {b : BitVec 2} {s t : State} (h : exec (.load b) s = .next t) : ∃ k, t = s.loadSlot k := by
  cases hk : Index.ofBits? b with
  | some k => rw [exec_load hk] at h; cases h; exact ⟨k, rfl⟩
  | none => simp [exec, execLoad, hk] at h

/-- A SAVE that answers a next state saves some slot (`44_valuestore.md` R122). -/
theorem exec_save_eq_next {b : BitVec 2} {s t : State} (h : exec (.save b) s = .next t) : ∃ k, t = s.saveSlot k := by
  cases hk : Index.ofBits? b with
  | some k => rw [exec_save hk] at h; cases h; exact ⟨k, rfl⟩
  | none => simp [exec, execSave, hk] at h

/-- A store micro-operation that answers a next state loads or saves some slot. -/
theorem exec_micro_eq_next {i : Instr} {s t : State} (hi : isMicro i = true) (h : exec i s = .next t) :
    ∃ k, t = s.loadSlot k ∨ t = s.saveSlot k := by
  cases i with
  | load b => exact (exec_load_eq_next h).imp fun _ => .inl
  | save b => exact (exec_save_eq_next h).imp fun _ => .inr
  | _ => cases hi

/-! ### What every operation keeps -/

/-- What TICK, RESET, every core event and every detector bit keep is kept by every operation but LOAD and SAVE; and by those too
where they keep it themselves. -/
theorem exec_keeps {P : State → Prop} (htick : ∀ s, P s → P (tick s)) (hreset : ∀ s, P s → P (resetAll s))
    (hdeliver : ∀ e s, P s → P (deliver e s)) (hlp : ∀ s b, P s → P { s with lpHandled := b })
    (haux : ∀ s b, P s → P { s with auxPrev := b }) {i : Instr} {s t : State}
    (hmicro : isMicro i = true → ∀ k, P (s.loadSlot k) ∧ P (s.saveSlot k)) (hs : P s) (h : exec i s = .next t) : P t := by
  rcases instr_context i with rfl | rfl | hi | hi | hi
  · cases h; exact htick s hs
  · cases h; exact hreset s hs
  · obtain ⟨k, rfl | rfl⟩ := exec_micro_eq_next hi h
    · exact (hmicro hi k).1
    · exact (hmicro hi k).2
  · obtain ⟨e, rfl⟩ := (isCore_iff i).mp hi
    rw [exec_coreInstr] at h; cases h; exact hdeliver e s hs
  · obtain ⟨btn, auxN, delta, rfl⟩ := (isPoll_iff i).mp hi
    rw [exec_pollInstr] at h; cases h; exact poll_keeps hdeliver hlp haux btn auxN delta hs

/-- With no store word placed by hand, a step keeps what the later stimuli do not bear on and every operation but LOAD and SAVE
keeps (`30_encoding.md` R54). -/
theorem step_keeps_of_placed_none {P : State → Prop} (hin : ∀ s later, P s → P { s with inputs := later })
    (hex : ∀ i, isMicro i = false → ∀ s t, P s → exec i s = .next t → P t) {s t : State} (hp : s.placed = none)
    (hs : P s) (ht : step s = .next t) : P t := by
  cases hx : s.inputs with
  | nil => rw [step_of_nil hp hx] at ht; cases ht; exact hs
  | cons x rest =>
    rw [step_of_cons hp hx] at ht
    exact applyFrames_keeps (fun f hf i hd => hex i (stimulus_not_micro hf hd)) (hin s rest hs) ht

@[simp] theorem deliver_placed (e : CoreEvent) (s : State) : (deliver e s).placed = s.placed := by
  obtain ⟨-, -, -, -, h⟩ := deliver_frame e s; exact h

@[simp] theorem resetAll_placed (s : State) : (resetAll s).placed = s.placed := by
  simp [resetAll, clearRegisters]

/-- No step places a store word where none is placed. -/
theorem step_placed_none {s t : State} (hp : s.placed = none) (ht : step s = .next t) : t.placed = none := by
  refine step_keeps_of_placed_none (P := fun s => s.placed = none) (fun _ _ h => h) (fun i hi s t hs h => ?_) hp hp ht
  refine exec_keeps (P := fun s => s.placed = none) ?_ ?_ ?_ (fun _ _ h => h) (fun _ _ h => h) ?_ hs h
  · exact fun s h => (tick_placed s).trans h
  · exact fun s h => (resetAll_placed s).trans h
  · exact fun e s h => (deliver_placed e s).trans h
  · exact fun hm => absurd hm (by simp [hi])

end Sys2Proof.Machine
end

section
/-! SUPPORT. The reachable pairs, the valid Durations and the canonical store (`10_state.md` R17, R18): established by RESET, kept
by every step. -/

namespace Sys2Proof.Machine

/-! ### The legal pairs (`10_state.md` R17) -/

@[simp] theorem legalPair_pulseFirst (m : Mode) : legalPair .pulseFirst m = true := by cases m <;> rfl

@[simp] theorem legalPair_view (m : Mode) : legalPair m.view m = true := by cases m <;> rfl

theorem legalPair_pulseIdle {m : Mode} (h : m ≠ .once) : legalPair .pulseIdle m = true := by
  cases m with
  | once => exact absurd rfl h
  | twice => rfl
  | continuous => rfl

/-- PulseIdle in a Mode other than Continuous is PulseIdle in Mode Twice, from which PulseSecond is legal. -/
theorem legalPair_pulseSecond {m : Mode} (hl : legalPair .pulseIdle m = true) (h : m ≠ .continuous) :
    legalPair .pulseSecond m = true := by
  cases m with
  | once => cases hl
  | twice => rfl
  | continuous => exact absurd rfl h

/-- PulseSecond is legal in Mode Twice alone, as ViewTwice is. -/
theorem legalPair_viewTwice {m : Mode} (hl : legalPair .pulseSecond m = true) : legalPair .viewTwice m = true := by
  cases m with
  | once => cases hl
  | twice => rfl
  | continuous => cases hl

/-- The edit sub-machine leads from a legal pair to a legal pair (`42_edit_events.md` R90 to R94). -/
theorem legalPair_of_editMove {rs rs' : RunState} {m : Mode} {slots : List Index} (hl : legalPair rs m = true)
    (h : editMove rs m = some (rs', slots)) : legalPair rs' m = true := by
  cases rs <;> cases m <;> cases hl <;> cases h <;> rfl

/-! ### The valid Durations (`10_state.md` R18) -/

/-- A Duration is at most 65535 because it has 16 bits, so to be valid is not to be 0. -/
theorem State.durationsValid_iff (s : State) : s.durationsValid ↔ ∀ k, s.duration k ≠ 0#16 := by
  refine forall_congr' fun k => ?_
  simp only [Config.minLength, Config.maxLength]
  bv_omega

theorem Index.default_ne_zero (k : Index) : k.default ≠ 0#16 := by cases k <;> decide

theorem adjusted_ne_zero (x delta : Word) : adjusted x delta ≠ 0#16 := by
  have := adjusted_range x delta
  bv_omega

/-- What a LOAD leaves in its own Duration (`44_valuestore.md` R120). -/
theorem State.loadSlot_duration_same (s : State) (k : Index) :
    (s.loadSlot k).duration k = if memRead s.nvm k = 0#16 then k.default else memRead s.nvm k := by
  unfold State.loadSlot
  dsimp only
  split
  · exact s.setDuration_duration_same k k.default
  · exact s.setDuration_duration_same k _

theorem State.loadSlot_duration_other (s : State) {k j : Index} (h : j ≠ k) :
    (s.loadSlot k).duration j = s.duration j := by
  unfold State.loadSlot
  dsimp only
  split
  · exact s.setDuration_duration_other k.default h
  · exact s.setDuration_duration_other _ h

/-- A LOAD never leaves 0 in its Duration: a stored 0 is replaced by the default, which is not 0. -/
theorem State.loadSlot_duration_ne_zero (s : State) (k : Index) : (s.loadSlot k).duration k ≠ 0#16 := by
  rw [s.loadSlot_duration_same]
  split
  · exact k.default_ne_zero
  · assumption

/-- RESET leaves no Duration at 0, whatever the store holds: each of the three LOADs writes its own. -/
theorem resetAll_duration_ne_zero (s : State) (k : Index) : (resetAll s).duration k ≠ 0#16 := by
  unfold resetAll
  cases k with
  | first =>
    rw [State.loadSlot_duration_other _ (by decide), State.loadSlot_duration_other _ (by decide)]
    exact State.loadSlot_duration_ne_zero _ _
  | second =>
    rw [State.loadSlot_duration_other _ (by decide)]
    exact State.loadSlot_duration_ne_zero _ _
  | idle => exact State.loadSlot_duration_ne_zero _ _

/-! ### The invariant -/

@[simp] theorem resetAll_runState (s : State) : (resetAll s).runState = .viewOnce := by
  simp [resetAll, clearRegisters]

@[simp] theorem resetAll_mode (s : State) : (resetAll s).mode = .once := by
  simp [resetAll, clearRegisters]

/-- RESET keeps the store canonical: its LOADs write at most the defaults. -/
theorem resetAll_wf {s : State} (h : Memory.wf s.nvm) : Memory.wf (resetAll s).nvm :=
  State.loadSlot_wf (State.loadSlot_wf (State.loadSlot_wf (s := clearRegisters s) h _) _) _

/-- RESET establishes the invariant from any canonical store. -/
theorem resetAll_inv {s : State} (h : Memory.wf s.nvm) : (resetAll s).Inv where
  pair := by simp [legalPair]
  durations := (State.durationsValid_iff _).mpr (resetAll_duration_ne_zero s)
  store := resetAll_wf h

/-- The Durations unchanged, the invariant asks for the pair and the store only. -/
theorem State.Inv.of_duration_eq {s t : State} (hs : s.Inv) (hd : ∀ k, t.duration k = s.duration k)
    (hp : legalPair t.runState t.mode = true) (hm : Memory.wf t.nvm) : t.Inv :=
  ⟨hp, fun k => hd k ▸ hs.durations k, hm⟩

/-- A Duration changed to a value that is not 0, the invariant is kept. -/
theorem State.Inv.of_duration_ne_zero {s t : State} (hs : s.Inv) (k : Index)
    (hk : t.duration k ≠ 0#16) (hd : ∀ j, j ≠ k → t.duration j = s.duration j)
    (hr : t.runState = s.runState) (hm : t.mode = s.mode) (hw : Memory.wf t.nvm) : t.Inv where
  pair := by rw [hr, hm]; exact hs.pair
  durations := t.durationsValid_iff.mpr fun j => by
    by_cases e : j = k
    · exact e ▸ hk
    · rw [hd j e]; exact s.durationsValid_iff.mp hs.durations j
  store := hw

/-- A LOAD keeps the invariant. -/
theorem loadSlot_inv {s : State} (hs : s.Inv) (k : Index) : (s.loadSlot k).Inv :=
  hs.of_duration_ne_zero k (s.loadSlot_duration_ne_zero k) (fun _ h => s.loadSlot_duration_other h) (by simp) (by simp)
    (State.loadSlot_wf hs.store k)

/-- A SAVE keeps the invariant. -/
theorem saveSlot_inv {s : State} (hs : s.Inv) (k : Index) : (s.saveSlot k).Inv :=
  hs.of_duration_eq (s.saveSlot_duration k) hs.pair (memWrite_wf hs.store k _)

/-- A TICK leads from a legal pair to a legal pair. -/
theorem tick_legalPair {s : State} (h : legalPair s.runState s.mode = true) :
    legalPair (tick s).runState (tick s).mode = true := by
  rcases tick_cases s with ⟨-, e⟩ | ⟨-, -, hm, e⟩ | ⟨-, -, hm, e⟩ | ⟨-, -, e⟩ | ⟨-, -, -, e⟩ | ⟨hr, -, hm, e⟩ |
    ⟨-, -, e⟩ | ⟨hr, -, e⟩ | ⟨-, -, e⟩ <;> rw [e]
  · exact h
  · exact hm ▸ rfl
  · exact legalPair_pulseIdle hm
  · exact h
  · exact legalPair_pulseFirst _
  · exact legalPair_pulseSecond (hr ▸ h) hm
  · exact h
  · exact legalPair_viewTwice (hr ▸ h)
  · exact h

/-- A TICK keeps the invariant. -/
theorem tick_inv {s : State} (hs : s.Inv) : (tick s).Inv :=
  hs.of_duration_eq (tick_duration s) (tick_legalPair hs.pair) (by rw [tick_nvm]; exact hs.store)

theorem startSequence_inv {s : State} (hs : s.Inv) : (startSequence s).Inv := by
  refine hs.of_duration_eq (startSequence_duration s) ?_ (by rw [startSequence_nvm]; exact hs.store)
  rcases startSequence_cases s with ⟨-, e⟩ | ⟨-, e⟩ <;> rw [e]
  · exact legalPair_pulseFirst _
  · exact hs.pair

theorem stopSequence_inv {s : State} (hs : s.Inv) : (stopSequence s).Inv := by
  refine hs.of_duration_eq (stopSequence_duration s) ?_ (by rw [stopSequence_nvm]; exact hs.store)
  rcases stopSequence_cases s with ⟨-, hm, e⟩ | ⟨-, e⟩ <;> rw [e]
  · exact hm ▸ rfl
  · exact hs.pair

theorem cycleMode_inv {s : State} (hs : s.Inv) : (cycleMode s).Inv := by
  refine hs.of_duration_eq (cycleMode_duration s) ?_ (by rw [cycleMode_nvm]; exact hs.store)
  rcases cycleMode_cases s with ⟨-, e⟩ | ⟨-, e⟩ <;> rw [e]
  · exact hs.pair
  · exact legalPair_view _

theorem toggleEdit_inv {s : State} (hs : s.Inv) : (toggleEdit s).Inv := by
  rcases toggleEdit_cases s with ⟨rs, slots, hmove, e⟩ | ⟨-, e⟩ <;> rw [e]
  · exact hs.of_duration_eq (s.saveSlots_duration slots) (by simpa using legalPair_of_editMove hs.pair hmove)
      (State.saveSlots_wf hs.store slots)
  · exact hs

theorem adjust_inv {s : State} (hs : s.Inv) (delta : Word) : (adjust delta s).Inv := by
  rcases adjust_cases delta s with ⟨k, -, e⟩ | ⟨-, e⟩ <;> rw [e]
  · exact hs.of_duration_ne_zero k (by simpa using adjusted_ne_zero _ delta)
      (fun _ h => s.setDuration_duration_other _ h) (by simp) (by simp) (by simpa using hs.store)
  · exact hs

/-- A core event keeps the invariant. -/
theorem deliver_inv (e : CoreEvent) {s : State} (hs : s.Inv) : (deliver e s).Inv := by
  cases e with
  | start => exact startSequence_inv hs
  | stop => exact stopSequence_inv hs
  | cycleMode => exact cycleMode_inv hs
  | toggleEdit => exact toggleEdit_inv hs
  | adjustValue delta => exact adjust_inv hs delta

/-- Every operation keeps the invariant, LOAD and SAVE too. -/
theorem exec_inv {s t : State} {i : Instr} (hs : s.Inv) (h : exec i s = .next t) : t.Inv :=
  exec_keeps (P := State.Inv) (fun _ => tick_inv) (fun _ hs => resetAll_inv hs.store) (fun e _ => deliver_inv e)
    (fun _ _ hs => ⟨hs.pair, hs.durations, hs.store⟩) (fun _ _ hs => ⟨hs.pair, hs.durations, hs.store⟩)
    (fun _ k => ⟨loadSlot_inv hs k, saveSlot_inv hs k⟩) hs h

/-- Settles O54: every operation keeps the invariant, which neither the later stimuli nor the placed word bear on. -/
theorem stepKeepsInvariant : Obligations.StepKeepsInvariant := fun _ _ =>
  step_keeps (fun _ _ hs => ⟨hs.pair, hs.durations, hs.store⟩) (fun _ hs => ⟨hs.pair, hs.durations, hs.store⟩)
    fun _ _ _ => exec_inv

/-- Settles O55: RESET writes ViewOnce, Once and three Durations that are not 0; the model's reset state holds the defaults. -/
theorem resetEstablishesInvariant : Obligations.ResetEstablishesInvariant := by
  refine ⟨fun s t hw h => ?_, rfl, ?_, by decide⟩
  · cases h; exact resetAll_inv hw
  · exact (State.durationsValid_iff _).mpr Index.default_ne_zero

end Sys2Proof.Machine
end

section
/-! SUPPORT. The counters (`10_state.md` R12, R19; `40_tick.md` R71): what a TICK does to them, and that none exceeds its Duration
while a sequence runs. -/

namespace Sys2Proof.Machine

/-- The Pulse state in which a counter counts (`00_scope.md` R6, `10_state.md` R12). -/
def Index.pulseState : Index → RunState
  | .first => .pulseFirst
  | .second => .pulseSecond
  | .idle => .pulseIdle

/-- What a TICK does to the counters: the Continuous restart, nothing, or one count of the active one, which is below its
Duration. -/
theorem tick_counter_cases (s : State) :
    (s.runState = .pulseIdle ∧ s.mode = .continuous ∧ s.idle ≤ s.idleCounter ∧ ∀ k, (tick s).counter k = 0#16) ∨
    (∀ k, (tick s).counter k = s.counter k) ∨
    ∃ k, s.runState = k.pulseState ∧ (tick s).runState = s.runState ∧ s.counter k < s.duration k ∧
      ∀ j, (tick s).counter j = (s.count k).counter j := by
  rcases tick_cases s with ⟨-, e⟩ | ⟨-, -, -, e⟩ | ⟨-, -, -, e⟩ | ⟨hr, hc, e⟩ | ⟨hr, hc, hm, e⟩ | ⟨-, -, -, e⟩ |
    ⟨hr, hc, e⟩ | ⟨-, -, e⟩ | ⟨hr, hc, e⟩ <;> rw [e]
  · exact .inr (.inl fun k => by cases k <;> rfl)
  · exact .inr (.inl fun k => by cases k <;> rfl)
  · exact .inr (.inl fun k => by cases k <;> rfl)
  · exact .inr (.inr ⟨.first, hr, rfl, BitVec.not_le.mp hc, fun j => by cases j <;> rfl⟩)
  · exact .inl ⟨hr, hm, hc, s.zeroCounters_counter⟩
  · exact .inr (.inl fun k => by cases k <;> rfl)
  · exact .inr (.inr ⟨.idle, hr, rfl, BitVec.not_le.mp hc, fun j => by cases j <;> rfl⟩)
  · exact .inr (.inl fun k => by cases k <;> rfl)
  · exact .inr (.inr ⟨.second, hr, rfl, BitVec.not_le.mp hc, fun j => by cases j <;> rfl⟩)

/-- Below its Duration a counter counts with no wrap. -/
theorem State.count_counter_toNat {s : State} {k : Index} (h : s.counter k < s.duration k) :
    ((s.count k).counter k).toNat = (s.counter k).toNat + 1 := by
  rw [s.count_counter_same]; bv_omega

/-- Settles O20: in the third case the active counter is one more with no wrap, and the other two stay. -/
theorem tickCountsTheActiveCounter : Obligations.TickCountsTheActiveCounter := by
  intro s t h
  cases h
  rcases tick_counter_cases s with hzero | hsame | ⟨k, hr, hstay, hlt, hcount⟩
  · exact .inl hzero
  · exact .inr fun k => .inl (hsame k)
  · refine .inr fun j => ?_
    by_cases e : j = k
    · subst e
      have hone := State.count_counter_toNat hlt
      refine .inr ⟨by cases j <;> exact hr, hstay, hlt, by rw [hcount]; exact hone, ?_, fun i hi => ?_⟩
      · exact Nat.le_of_lt_succ ((tick s).counter j).isLt
      · rw [hcount]; exact s.count_counter_other hi
    · exact .inl ((hcount j).trans (s.count_counter_other e))

/-! ### No counter exceeds its Duration (`10_state.md` R19) -/

/-- Outside a sequence there is nothing to show. -/
theorem State.countersBounded_of_not_pulsing {s : State} (h : s.runState.pulsing = false) : s.countersBounded :=
  fun hp => absurd hp (by simp [h])

theorem State.countersBounded_of_zero {s : State} (h : ∀ k, s.counter k = 0#16) : s.countersBounded :=
  fun _ k => by rw [h k]; exact Nat.zero_le _

/-- The edit sub-machine never enters a Pulse state. -/
theorem editMove_not_pulsing {rs rs' : RunState} {m : Mode} {slots : List Index}
    (h : editMove rs m = some (rs', slots)) : rs'.pulsing = false := by
  cases rs <;> cases m <;> cases h <;> rfl

/-- An Edit state is no Pulse state. -/
theorem RunState.not_pulsing_of_editIndex? {rs : RunState} {k : Index} (h : rs.editIndex? = some k) :
    rs.pulsing = false := by
  cases rs <;> cases h <;> rfl

/-- A TICK starts no sequence. -/
theorem pulsing_of_tick_pulsing {s : State} (h : (tick s).runState.pulsing = true) : s.runState.pulsing = true := by
  rcases tick_cases s with ⟨-, e⟩ | ⟨hr, -⟩ | ⟨hr, -⟩ | ⟨hr, -⟩ | ⟨hr, -⟩ | ⟨hr, -⟩ | ⟨hr, -⟩ | ⟨hr, -⟩ | ⟨hr, -⟩
  · rw [e] at h; exact h
  all_goals rw [hr]; rfl

/-- A TICK keeps every counter within its Duration: it counts only below it. -/
theorem tick_countersBounded {s : State} (hs : s.countersBounded) : (tick s).countersBounded := by
  intro hp j
  have hj := hs (pulsing_of_tick_pulsing hp) j
  rw [tick_duration]
  rcases tick_counter_cases s with ⟨-, -, -, hzero⟩ | hsame | ⟨k, -, -, hlt, hcount⟩
  · rw [hzero]; exact Nat.zero_le _
  · rw [hsame]; exact hj
  · rw [hcount]
    by_cases e : j = k
    · subst e
      have := State.count_counter_toNat hlt
      bv_omega
    · rw [s.count_counter_other e]; exact hj

theorem startSequence_countersBounded {s : State} (hs : s.countersBounded) : (startSequence s).countersBounded := by
  rcases startSequence_cases s with ⟨-, e⟩ | ⟨-, e⟩ <;> rw [e]
  · exact State.countersBounded_of_zero s.zeroCounters_counter
  · exact hs

theorem stopSequence_countersBounded {s : State} (hs : s.countersBounded) : (stopSequence s).countersBounded := by
  rcases stopSequence_cases s with ⟨-, -, e⟩ | ⟨-, e⟩ <;> rw [e]
  · exact State.countersBounded_of_not_pulsing rfl
  · exact hs

theorem cycleMode_countersBounded {s : State} (hs : s.countersBounded) : (cycleMode s).countersBounded := by
  rcases cycleMode_cases s with ⟨-, e⟩ | ⟨-, e⟩ <;> rw [e]
  · exact hs
  · exact State.countersBounded_of_not_pulsing s.mode.next.view_pulsing

theorem toggleEdit_countersBounded {s : State} (hs : s.countersBounded) : (toggleEdit s).countersBounded := by
  rcases toggleEdit_cases s with ⟨rs, slots, hmove, e⟩ | ⟨-, e⟩ <;> rw [e]
  · exact State.countersBounded_of_not_pulsing (editMove_not_pulsing hmove)
  · exact hs

/-- An ADJUST moves a Duration in an Edit state only, so never under a counter that runs. -/
theorem adjust_countersBounded {s : State} (hs : s.countersBounded) (delta : Word) :
    (adjust delta s).countersBounded := by
  rcases adjust_cases delta s with ⟨k, hk, e⟩ | ⟨-, e⟩ <;> rw [e]
  · exact State.countersBounded_of_not_pulsing (by simpa using RunState.not_pulsing_of_editIndex? hk)
  · exact hs

/-- A core event keeps every counter within its Duration: it zeroes them, leaves the sequence, or changes nothing during one. -/
theorem deliver_countersBounded (e : CoreEvent) {s : State} (hs : s.countersBounded) :
    (deliver e s).countersBounded := by
  cases e with
  | start => exact startSequence_countersBounded hs
  | stop => exact stopSequence_countersBounded hs
  | cycleMode => exact cycleMode_countersBounded hs
  | toggleEdit => exact toggleEdit_countersBounded hs
  | adjustValue delta => exact adjust_countersBounded hs delta

/-- RESET ends every sequence. -/
theorem resetAll_countersBounded (s : State) : (resetAll s).countersBounded :=
  State.countersBounded_of_not_pulsing (by rw [resetAll_runState]; rfl)

/-- Settles O56: with no store word placed, no LOAD or SAVE of its own shortens a Duration under its counter. -/
theorem stepKeepsCountersBounded : Obligations.StepKeepsCountersBounded := by
  refine fun s t hp hs ht => ⟨?_, step_placed_none hp ht⟩
  refine step_keeps_of_placed_none (fun _ _ h => h) (fun i hi s t hs h => ?_) hp hs ht
  exact exec_keeps (P := State.countersBounded) (fun _ => tick_countersBounded) (fun s _ => resetAll_countersBounded s)
    (fun e _ => deliver_countersBounded e) (fun _ _ h => h) (fun _ _ h => h) (fun hm => absurd hm (by simp [hi])) hs h

end Sys2Proof.Machine
end

section
/-! SUPPORT. RunState, Mode and OutputLevel after an operation: the transfer table (`10_state.md` R14) and the level a TICK writes
(R16). -/

namespace Sys2Proof.Machine

/-! ### The level (`10_state.md` R16) -/

theorem RunState.ne_of_not_pulsing {rs : RunState} (h : rs.pulsing = false) (k : Index) : rs ≠ k.pulseState := by
  rintro rfl; cases k <;> cases h

/-- Settles O21: each case of TICK writes one level, and says which of the conditions holds. -/
theorem tickWritesTheLevel : Obligations.TickWritesTheLevel := by
  intro s t h
  cases h
  refine ⟨?_, by cases (tick s).outputLevel <;> simp⟩
  rcases tick_cases s with ⟨hr, e⟩ | ⟨hr, hc, hm, e⟩ | ⟨hr, hc, hm, e⟩ | ⟨hr, hc, e⟩ | ⟨hr, hc, hm, e⟩ |
    ⟨hr, hc, hm, e⟩ | ⟨hr, hc, e⟩ | ⟨hr, hc, e⟩ | ⟨hr, hc, e⟩ <;> rw [e]
  case inl =>
    have hfirst : s.runState ≠ .pulseFirst := RunState.ne_of_not_pulsing hr .first
    have hsecond : s.runState ≠ .pulseSecond := RunState.ne_of_not_pulsing hr .second
    simp [hfirst, hsecond]
  all_goals simp [restartSequence, *]

/-! ### The transfer table (`10_state.md` R14) -/

/-- Rows 2 to 6. -/
theorem tick_transfer (s : State) : ((tick s).runState, (tick s).mode) = (transferRow .tick s).getD (s.runState, s.mode) := by
  rcases tick_cases s with ⟨hr, e⟩ | ⟨hr, hc, hm, e⟩ | ⟨hr, hc, hm, e⟩ | ⟨hr, hc, e⟩ | ⟨hr, hc, hm, e⟩ |
    ⟨hr, hc, hm, e⟩ | ⟨hr, hc, e⟩ | ⟨hr, hc, e⟩ | ⟨hr, hc, e⟩ <;> rw [e]
  case inl =>
    have hfirst : s.runState ≠ .pulseFirst := RunState.ne_of_not_pulsing hr .first
    have hidle : s.runState ≠ .pulseIdle := RunState.ne_of_not_pulsing hr .idle
    have hsecond : s.runState ≠ .pulseSecond := RunState.ne_of_not_pulsing hr .second
    simp [transferRow, hfirst, hidle, hsecond]
  all_goals simp [transferRow, restartSequence, *]

/-- Row 1. -/
theorem startSequence_transfer (s : State) :
    ((startSequence s).runState, (startSequence s).mode) = (transferRow .start s).getD (s.runState, s.mode) := by
  rcases startSequence_cases s with ⟨h, e⟩ | ⟨h, e⟩ <;> simp [transferRow, h, e]

/-- Row 7. -/
theorem stopSequence_transfer (s : State) :
    ((stopSequence s).runState, (stopSequence s).mode) = (transferRow .stop s).getD (s.runState, s.mode) := by
  rcases stopSequence_cases s with ⟨hr, hm, e⟩ | ⟨h, e⟩
  · simp [transferRow, hr, hm, e]
  · simp [transferRow, h, e]

/-- A RunState is a Pulse state exactly when it is no View and no Edit state (`00_scope.md` R5). -/
theorem RunState.viewing_or_editing_iff (rs : RunState) :
    rs.viewing = true ∨ rs.editing = true ↔ rs.pulsing = false := by
  cases rs <;> simp [RunState.viewing, RunState.editing, RunState.pulsing]

/-- Row 8. -/
theorem cycleMode_transfer (s : State) :
    ((cycleMode s).runState, (cycleMode s).mode) = (transferRow .cycleMode s).getD (s.runState, s.mode) := by
  rcases cycleMode_cases s with ⟨h, e⟩ | ⟨h, e⟩ <;> simp [transferRow, RunState.viewing_or_editing_iff, h, e]

/-- Rows 9 to 14 are the edit sub-machine's moves. -/
theorem transferRow_toggleEdit (s : State) :
    transferRow .toggleEdit s = (editMove s.runState s.mode).map fun p => (p.1, s.mode) := by
  unfold transferRow
  generalize s.runState = rs
  generalize s.mode = m
  cases rs <;> cases m <;> rfl

theorem toggleEdit_transfer (s : State) :
    ((toggleEdit s).runState, (toggleEdit s).mode) = (transferRow .toggleEdit s).getD (s.runState, s.mode) := by
  rw [transferRow_toggleEdit]
  rcases toggleEdit_cases s with ⟨rs, slots, hmove, e⟩ | ⟨hmove, e⟩ <;> simp [hmove, e]

/-- LOAD and SAVE move neither RunState nor Mode. -/
theorem exec_micro_transfer {i : Instr} {s t : State} (hi : isMicro i = true) (h : exec i s = .next t) :
    (t.runState, t.mode) = (transferRow i s).getD (s.runState, s.mode) := by
  have hrow : transferRow i s = none := by
    cases i with
    | load | save => rfl
    | _ => cases hi
  obtain ⟨k, rfl | rfl⟩ := exec_micro_eq_next hi h <;> simp [hrow]

/-- A core event makes the transfer of its rows. -/
theorem deliver_transfer (e : CoreEvent) (s : State) :
    ((deliver e s).runState, (deliver e s).mode) = (transferRow e.instr s).getD (s.runState, s.mode) := by
  cases e with
  | start => exact startSequence_transfer s
  | stop => exact stopSequence_transfer s
  | cycleMode => exact cycleMode_transfer s
  | toggleEdit => exact toggleEdit_transfer s
  | adjustValue delta => exact congrArg₂ Prod.mk (adjust_runState delta s) (adjust_mode delta s)

/-- Settles O57: each operation that is neither a POLL nor RESET makes the transfer of its rows, and no other. -/
theorem runStateTransfers : Obligations.RunStateTransfers := by
  intro i s t hpoll hreset h
  rcases instr_context i with rfl | rfl | hi | hi | hi
  · cases h; exact tick_transfer s
  · exact absurd rfl hreset
  · exact exec_micro_transfer hi h
  · obtain ⟨e, rfl⟩ := (isCore_iff i).mp hi
    rw [exec_coreInstr] at h; cases h; exact deliver_transfer e s
  · simp [hi] at hpoll

end Sys2Proof.Machine
end

section
/-! SUPPORT. A slot of the store (`20_memory.md` R31 to R34): read little-endian, read back whole, and a slot that holds a value
other than 0 keeps it across RESETs (R39). -/

namespace Sys2Proof.Machine

/-! ### Offsets and bytes of a slot (`20_memory.md` R31, R33) -/

theorem lowAddr_val (k : Index) : (lowAddr k).val = 2 * k.num := Nat.zero_add _

theorem highAddr_val (k : Index) : (highAddr k).val = 2 * k.num + 1 := congrArg (· + 1) (Nat.zero_add _)

/-- A slot's value is its low byte plus 256 times its high byte. -/
theorem memRead_toNat (m : Memory) (k : Index) :
    (memRead m k).toNat = (Memory.read m (lowAddr k)).toNat + 256 * (Memory.read m (highAddr k)).toNat := by
  show (Memory.read m (highAddr k) ++ Memory.read m (lowAddr k) : BitVec (8 + 8)).toNat = _
  rw [BitVec.toNat_append, ← Nat.shiftLeft_add_eq_or_of_lt (BitVec.isLt _), Nat.shiftLeft_eq]
  omega

/-! ### Reading back a slot (`20_memory.md` R34) -/

/-- A slot is read back whole. -/
theorem memRead_memWrite_same {m : Memory} (h : Memory.wf m) (k : Index) (v : Word) : memRead (memWrite m k v) k = v := by
  rw [memRead, memWrite_read_high h, memWrite_read_low h, highByte_append_lowByte]

/-- Writing a slot's value again leaves the same list: both stores are canonical and read the same at every byte. -/
theorem memWrite_memWrite_same {m : Memory} (h : Memory.wf m) (k : Index) (v : Word) :
    memWrite (memWrite m k v) k v = memWrite m k v := by
  have hw : Memory.wf (memWrite m k v) := memWrite_wf h k v
  refine Memory.ext_read (memWrite_wf hw k v) hw fun a => ?_
  by_cases hl : a = lowAddr k
  · rw [hl, memWrite_read_low hw, memWrite_read_low h]
  · by_cases hh : a = highAddr k
    · rw [hh, memWrite_read_high hw, memWrite_read_high h]
    · exact memWrite_read_outside _ k v hl hh

/-- Settles O47: each clause is a law of the slot read or the slot write. -/
theorem storeReadsWhatWasWritten : Obligations.StoreReadsWhatWasWritten := fun m k v h =>
  ⟨lowAddr_val k, highAddr_val k, memRead_toNat m k, memWrite_read_low h k v, memWrite_read_high h k v,
    memRead_memWrite_same h k v, fun _ => memWrite_read_outside m k v, memWrite_wf h k v, memWrite_memWrite_same h k v⟩

/-! ### LOAD and RESET on a stored value (`20_memory.md` R39, `44_valuestore.md` R120) -/

/-- A LOAD writes nothing back where the slot holds a value other than 0. -/
theorem State.loadSlot_nvm_of_ne_zero {s : State} {k : Index} (h : memRead s.nvm k ≠ 0#16) :
    (s.loadSlot k).nvm = s.nvm := by
  unfold State.loadSlot
  dsimp only
  rw [if_neg h, State.setDuration_nvm]

/-- A LOAD leaves the other slots. -/
theorem State.loadSlot_memRead_other (s : State) {j k : Index} (h : j ≠ k) :
    memRead (s.loadSlot k).nvm j = memRead s.nvm j := by
  unfold State.loadSlot
  dsimp only
  split
  · exact memRead_memWrite_other s.nvm k.default h
  · rw [State.setDuration_nvm]

/-- A LOAD of any slot leaves a slot that holds a value other than 0. -/
theorem State.loadSlot_memRead_of_ne_zero {s : State} {j : Index} (h : memRead s.nvm j ≠ 0#16) (k : Index) :
    memRead (s.loadSlot k).nvm j = memRead s.nvm j := by
  by_cases e : j = k
  · subst e; rw [State.loadSlot_nvm_of_ne_zero h]
  · exact s.loadSlot_memRead_other e

/-- RESET leaves a slot that holds a value other than 0: each of its three LOADs does. -/
theorem resetAll_memRead_of_ne_zero {s : State} {k : Index} (h : memRead s.nvm k ≠ 0#16) :
    memRead (resetAll s).nvm k = memRead s.nvm k := by
  have hfirst : memRead ((clearRegisters s).loadSlot .first).nvm k = memRead s.nvm k :=
    State.loadSlot_memRead_of_ne_zero (s := clearRegisters s) h .first
  have hsecond := (State.loadSlot_memRead_of_ne_zero (hfirst ▸ h) .second).trans hfirst
  exact (State.loadSlot_memRead_of_ne_zero (hsecond ▸ h) .idle).trans hsecond

/-- RESET leaves in each Duration its slot's value, or the default for a stored 0 (`10_state.md` R25): the LOADs of the other
slots neither write the slot nor move the Duration. -/
theorem resetAll_duration (s : State) (k : Index) :
    (resetAll s).duration k = if memRead s.nvm k = 0#16 then k.default else memRead s.nvm k := by
  unfold resetAll
  cases k with
  | first =>
    rw [State.loadSlot_duration_other _ (by decide), State.loadSlot_duration_other _ (by decide)]
    exact State.loadSlot_duration_same _ _
  | second =>
    rw [State.loadSlot_duration_other _ (by decide), State.loadSlot_duration_same,
      State.loadSlot_memRead_other _ (by decide)]
    rfl
  | idle =>
    rw [State.loadSlot_duration_same, State.loadSlot_memRead_other _ (by decide),
      State.loadSlot_memRead_other _ (by decide)]
    rfl

/-- After a SAVE of a Duration other than 0 and RESETs, the last operation meets the slot with the saved value. -/
theorem exec_after_save_and_resets {s t : State} {b : BitVec 2} {k : Index} (n : Nat) {i : Instr}
    (hw : Memory.wf s.nvm) (hk : Index.ofBits? b = some k) (hd : s.duration k ≠ 0#16)
    (h : execAll (.save b :: (List.replicate n .reset ++ [i])) s = .next t) :
    ∃ u, memRead u.nvm k = s.duration k ∧ execAll [i] u = .next t := by
  rw [execAll_cons, exec_save hk, andThen_next, execAll_append] at h
  obtain ⟨u, hu, ht⟩ := andThen_eq_next h
  have hsaved : memRead (s.saveSlot k).nvm k = s.duration k := by
    rw [State.saveSlot_nvm]; exact memRead_memWrite_same hw k _
  refine ⟨u, ?_, ht⟩
  refine execAll_keeps (P := fun s' => memRead s'.nvm k = s.duration k) (fun i hi s' t' hs' h' => ?_)
    hsaved hu
  obtain rfl := List.eq_of_mem_replicate hi
  cases h'
  exact (resetAll_memRead_of_ne_zero (hs' ▸ hd)).trans hs'

/-- Settles O51: the SAVE puts the Duration in its slot, each RESET leaves the slot because it does not hold 0, and the last LOAD
or RESET takes the slot's value. -/
theorem savedValueSurvivesResets : Obligations.SavedValueSurvivesResets := by
  refine fun s t b k n hw hk hd => ⟨fun h => ?_, fun h => ?_⟩
  · obtain ⟨u, hu, ht⟩ := exec_after_save_and_resets n hw hk hd h
    rw [execAll_cons, exec_load hk] at ht
    cases ht
    rw [u.loadSlot_duration_same, hu, if_neg hd]
  · rw [List.replicate_succ'] at h
    obtain ⟨u, hu, ht⟩ := exec_after_save_and_resets n hw hk hd h
    rw [execAll_cons, exec_reset, andThen_next, execAll_nil] at ht
    cases ht
    rw [resetAll_duration, hu, if_neg hd]

end Sys2Proof.Machine
end

section
/-! SUPPORT. No operation reads or writes what is still to be presented (`20_memory.md` R38; log 1, 3), so a run over the words of
a list of operations is that list applied in order. -/

namespace Sys2Proof.Machine

/-! ### The later inputs -/

/-- The state with other stimuli to be presented and another placed word, and the machine's own fields unchanged (log 1, 3). -/
def State.withLater (s : State) (later : List Stimulus) (hand : Option (BitVec 3)) : State :=
  { s with inputs := later, placed := hand }

@[simp] theorem State.withLater_runState (s : State) (later : List Stimulus) (hand : Option (BitVec 3)) :
    (s.withLater later hand).runState = s.runState := rfl
@[simp] theorem State.withLater_mode (s : State) (later : List Stimulus) (hand : Option (BitVec 3)) :
    (s.withLater later hand).mode = s.mode := rfl
@[simp] theorem State.withLater_duration (s : State) (later : List Stimulus) (hand : Option (BitVec 3)) (k : Index) :
    (s.withLater later hand).duration k = s.duration k := by cases k <;> rfl

/-- A function of the state that neither reads nor writes the later inputs. -/
def IgnoresLater (f : State → State) : Prop :=
  ∀ s later hand, f (s.withLater later hand) = (f s).withLater later hand

theorem IgnoresLater.comp {f g : State → State} (hg : IgnoresLater g) (hf : IgnoresLater f) :
    IgnoresLater fun s => g (f s) := fun s later hand => by
  show g (f (s.withLater later hand)) = _
  rw [hf, hg]

/-- A choice that does not look at the later inputs, between two functions that ignore them. -/
theorem IgnoresLater.ite {c : State → Prop} [DecidablePred c] {f g : State → State}
    (hc : ∀ s later hand, c (s.withLater later hand) ↔ c s) (hf : IgnoresLater f) (hg : IgnoresLater g) :
    IgnoresLater fun s => if c s then f s else g s := fun s later hand => by
  by_cases h : c s
  · simp only [if_pos h, if_pos ((hc s later hand).mpr h), hf s later hand]
  · simp only [if_neg h, if_neg (mt (hc s later hand).mp h), hg s later hand]

/-! ### The store and the registers by index -/

theorem setDuration_ignoresLater (k : Index) (v : Word) : IgnoresLater fun s => s.setDuration k v :=
  fun _ _ _ => by cases k <;> rfl

theorem saveSlot_ignoresLater (k : Index) : IgnoresLater fun s => s.saveSlot k :=
  fun _ _ _ => by cases k <;> rfl

theorem saveSlots_ignoresLater (ks : List Index) : IgnoresLater fun s => s.saveSlots ks := by
  induction ks with
  | nil => exact fun _ _ _ => rfl
  | cons k ks ih => exact ih.comp (saveSlot_ignoresLater k)

theorem loadSlot_ignoresLater (k : Index) : IgnoresLater fun s => s.loadSlot k :=
  .ite (fun _ _ _ => Iff.rfl) (fun _ _ _ => by cases k <;> rfl) (fun _ _ _ => by cases k <;> rfl)

theorem resetAll_ignoresLater : IgnoresLater resetAll :=
  (loadSlot_ignoresLater .idle).comp <| (loadSlot_ignoresLater .second).comp <|
    (loadSlot_ignoresLater .first).comp (f := clearRegisters) fun _ _ _ => rfl

/-! ### TICK -/

theorem tickPulseFirst_ignoresLater : IgnoresLater tickPulseFirst :=
  .ite (fun _ _ _ => Iff.rfl) (.ite (fun _ _ _ => Iff.rfl) (fun _ _ _ => rfl) (fun _ _ _ => rfl)) (fun _ _ _ => rfl)

theorem tickPulseIdle_ignoresLater : IgnoresLater tickPulseIdle :=
  .ite (fun _ _ _ => Iff.rfl) (.ite (fun _ _ _ => Iff.rfl) (fun _ _ _ => rfl) (fun _ _ _ => rfl)) (fun _ _ _ => rfl)

theorem tickPulseSecond_ignoresLater : IgnoresLater tickPulseSecond :=
  .ite (fun _ _ _ => Iff.rfl) (fun _ _ _ => rfl) (fun _ _ _ => rfl)

/-- TICK chooses by RunState, and each choice ignores the later inputs. -/
theorem tick_ignoresLater : IgnoresLater tick := by
  intro s later hand
  unfold tick
  rw [State.withLater_runState]
  cases s.runState with
  | pulseFirst => exact tickPulseFirst_ignoresLater s later hand
  | pulseIdle => exact tickPulseIdle_ignoresLater s later hand
  | pulseSecond => exact tickPulseSecond_ignoresLater s later hand
  | viewOnce | viewTwice | viewContinuous | editFirst | editSecond | editIdle => rfl

/-! ### Core events -/

theorem startSequence_ignoresLater : IgnoresLater startSequence :=
  .ite (fun _ _ _ => Iff.rfl) (fun _ _ _ => rfl) (fun _ _ _ => rfl)

theorem stopSequence_ignoresLater : IgnoresLater stopSequence :=
  .ite (fun _ _ _ => Iff.rfl) (fun _ _ _ => rfl) (fun _ _ _ => rfl)

theorem cycleMode_ignoresLater : IgnoresLater cycleMode :=
  .ite (fun _ _ _ => Iff.rfl) (fun _ _ _ => rfl) (fun _ _ _ => rfl)

theorem toggleEdit_ignoresLater : IgnoresLater toggleEdit := by
  intro s later hand
  unfold toggleEdit
  rw [State.withLater_runState, State.withLater_mode]
  cases editMove s.runState s.mode with
  | none => rfl
  | some p => exact congrArg (fun u : State => { u with runState := p.1 }) (saveSlots_ignoresLater p.2 s later hand)

theorem adjust_ignoresLater (delta : Word) : IgnoresLater (adjust delta) := by
  intro s later hand
  unfold adjust
  rw [State.withLater_runState]
  cases s.runState.editIndex? with
  | none => rfl
  | some k => simp only [State.withLater_duration]; exact setDuration_ignoresLater k _ s later hand

theorem deliver_ignoresLater (e : CoreEvent) : IgnoresLater (deliver e) := by
  cases e with
  | start => exact startSequence_ignoresLater
  | stop => exact stopSequence_ignoresLater
  | cycleMode => exact cycleMode_ignoresLater
  | toggleEdit => exact toggleEdit_ignoresLater
  | adjustValue delta => exact adjust_ignoresLater delta

/-! ### Polls -/

theorem send_ignoresLater (e : Option CoreEvent) : IgnoresLater (send e) := by
  cases e with
  | none => exact fun _ _ _ => rfl
  | some e => exact deliver_ignoresLater e

/-- The rotation's event is the same before other later inputs, by unfolding; so is the auxiliary switch's in `auxStep`. -/
theorem rotationStep_ignoresLater (delta : Word) : IgnoresLater (rotationStep delta) :=
  fun s => send_ignoresLater (rotationEvent delta s) s

theorem buttonStep_ignoresLater (btn : Button) : IgnoresLater (buttonStep btn) := fun s later hand => by
  have hevent : buttonEvent btn (s.withLater later hand) = buttonEvent btn s := by cases btn <;> rfl
  unfold buttonStep
  rw [hevent]
  exact send_ignoresLater _ { s with lpHandled := lpAfter btn s.lpHandled } later hand

theorem auxStep_ignoresLater (auxN : Bool) : IgnoresLater (auxStep auxN) :=
  fun s => send_ignoresLater (auxEvent auxN s) { s with auxPrev := auxPressed auxN }

theorem poll_ignoresLater (btn : Button) (auxN : Bool) (delta : Word) : IgnoresLater (poll btn auxN delta) :=
  (auxStep_ignoresLater auxN).comp ((buttonStep_ignoresLater btn).comp (rotationStep_ignoresLater delta))

/-! ### Every operation -/

/-- An operation that answers next with such a function answers so before other later inputs too. -/
theorem exec_withLater_of_eq_next {f : State → State} {i : Instr} (hf : IgnoresLater f)
    (hi : ∀ s, exec i s = .next (f s)) (s : State) (later : List Stimulus) (hand : Option (BitVec 3)) :
    exec i (s.withLater later hand) = andThen (exec i s) fun t => .next (t.withLater later hand) := by
  rw [hi, hi, andThen_next, hf]

/-- Before other later inputs an operation answers the same, with those inputs in its next state; a stop stays a stop. -/
theorem exec_withLater (i : Instr) (s : State) (later : List Stimulus) (hand : Option (BitVec 3)) :
    exec i (s.withLater later hand) = andThen (exec i s) fun t => .next (t.withLater later hand) := by
  rcases instr_context i with rfl | rfl | hi | hi | hi
  · exact exec_withLater_of_eq_next tick_ignoresLater exec_tick s later hand
  · exact exec_withLater_of_eq_next resetAll_ignoresLater exec_reset s later hand
  · cases i with
    | load b =>
      cases hk : Index.ofBits? b with
      | some k => exact exec_withLater_of_eq_next (loadSlot_ignoresLater k) (exec_load hk) s later hand
      | none => simp [exec, execLoad, hk, andThen]
    | save b =>
      cases hk : Index.ofBits? b with
      | some k => exact exec_withLater_of_eq_next (saveSlot_ignoresLater k) (exec_save hk) s later hand
      | none => simp [exec, execSave, hk, andThen]
    | _ => cases hi
  · obtain ⟨e, rfl⟩ := (isCore_iff i).mp hi
    exact exec_withLater_of_eq_next (deliver_ignoresLater e) (exec_coreInstr e) s later hand
  · obtain ⟨btn, auxN, delta, rfl⟩ := (isPoll_iff i).mp hi
    exact exec_withLater_of_eq_next (poll_ignoresLater btn auxN delta) (exec_pollInstr btn auxN delta) s later hand

/-- An operation that answers a next state answers it before any later inputs, with those in it. -/
theorem exec_withLater_eq_next {i : Instr} {s t : State} (h : exec i s = .next t) (later : List Stimulus)
    (hand : Option (BitVec 3)) : exec i (s.withLater later hand) = .next (t.withLater later hand) := by
  rw [exec_withLater, h, andThen_next]

/-- No operation writes the later inputs: put back as they were, they change nothing before it and so nothing after it. -/
theorem exec_keeps_later {i : Instr} {s t : State} (h : exec i s = .next t) :
    t.inputs = s.inputs ∧ t.placed = s.placed := by
  have hback : exec i s = .next (t.withLater s.inputs s.placed) := exec_withLater_eq_next h s.inputs s.placed
  have hsame : t = t.withLater s.inputs s.placed := Host.Outcome.next.inj (h.symm.trans hback)
  exact ⟨(congrArg State.inputs hsame :), (congrArg State.placed hsame :)⟩

/-- Settles O11: every operation ignores the later inputs, and so leaves its own as they were. -/
theorem operationsIgnoreLaterInputs : Obligations.OperationsIgnoreLaterInputs := fun _ _ _ later hand h =>
  have ⟨hinputs, hplaced⟩ := exec_keeps_later h
  ⟨hinputs, hplaced, exec_withLater_eq_next h later hand⟩

/-! ### A run over the words of operations (`20_memory.md` R38) -/

/-- The word of a well-formed operation decodes to it (`30_encoding.md` R58). -/
theorem decode_encode {i : Instr} (h : i.wellFormed = true) : decode (encode i) = .operation i := by
  cases i with
  | tick | start | stop | cycleMode | toggleEdit | reset => decide
  | adjust delta => simp [encode, decode, decodeE]
  | load k | save k =>
    have hk : slotInRange k = true := h
    simp [encode, decode, decodeS, hk]
  | _ => simp [encode, decode, decodeP]

/-- Every operation but LOAD and SAVE is well formed. -/
theorem wellFormed_of_not_micro {i : Instr} (h : isMicro i = false) : i.wellFormed = true := by
  cases i with
  | load | save => cases h
  | _ => rfl

/-- The environment can present the word of every operation but LOAD and SAVE (`30_encoding.md` R54). -/
theorem encode_stimulus?_of_not_micro {i : Instr} (h : isMicro i = false) : ∃ x, (encode i).stimulus? = some x := by
  cases i with
  | load | save => cases h
  | _ => exact ⟨_, rfl⟩

/-- With the word of an operation at the head of the list, a step is that operation on the rest. -/
theorem step_of_encode {i : Instr} {x : Stimulus} (hi : isMicro i = false) (hx : (encode i).stimulus? = some x)
    {s : State} (hp : s.placed = none) (words : List Stimulus) :
    step { s with inputs := x :: words } = exec i { s with inputs := words } := by
  refine (step_of_word (s := { s with inputs := x :: words }) hp rfl (stimulusFrames_of_stimulus? hx)).trans ?_
  rw [applyFrame, decode_encode (wellFormed_of_not_micro hi)]

/-- Settles O10, by induction on the list: the first step is the first operation on the rest of the words, which that operation
ignores. -/
theorem runAppliesOperationsInOrder : Obligations.RunAppliesOperationsInOrder := by
  intro is s rest hp hall
  induction is generalizing s with
  | nil => rfl
  | cons i is ih =>
    have hi : isMicro i = false := hall i List.mem_cons_self
    obtain ⟨x, hx⟩ := encode_stimulus?_of_not_micro hi
    rw [List.length_cons, run_succ, List.filterMap_cons_some (f := fun i => (encode i).stimulus?) hx, List.cons_append,
      execAll_cons]
    generalize hwords : is.filterMap (fun i => (encode i).stimulus?) ++ rest = words
    have hfirst : step { s with inputs := x :: words } =
        andThen (exec i { s with inputs := rest }) fun t => .next (t.withLater words s.placed) :=
      (step_of_encode hi hx hp words).trans (exec_withLater i { s with inputs := rest } words s.placed)
    rw [hfirst]
    cases ht : exec i { s with inputs := rest } with
    | next t =>
      obtain ⟨hinputs, hplaced⟩ := exec_keeps_later ht
      have hrest := ih t (hplaced.trans hp) fun j hj => hall j (List.mem_cons_of_mem _ hj)
      subst hwords hinputs
      rw [← hplaced]
      exact hrest
    | fault r => rfl
    | refused r => rfl

end Sys2Proof.Machine
end

section
/-! SUPPORT. The words of the interfaces (`30_encoding.md` R50 to R58): encoding and decoding undo each other but for the bits the
spec ignores, every word has its row of the opcode table alone, and the reserved words do what R54 and R57 say. -/

namespace Sys2Proof.Machine

/-! ### Decoding an encoding, and encoding what a word decodes to (`30_encoding.md` R58) -/

/-- Settles O1: a word made of fields is decoded by its fields, which read back as they were put in. -/
theorem decodeOfEncodeIsIdentity : Obligations.DecodeOfEncodeIsIdentity := fun _ => decode_encode

/-- An event word is the encoding of its operation but for the `arg`, which codes 1 to 4 ignore (`30_encoding.md` R51). -/
theorem encode_of_decode_e {w : BitVec 19} {i : Instr} (h : decode (.e w) = .operation i) :
    encode i = .e (eWord (eCode w) (if eCode w = 5#3 then eArg w else 0#16)) := by
  simp only [decode] at h
  unfold decodeE at h
  split at h <;> cases h
  all_goals simp [encode, *]

/-- A button code that is none of 1 to 6 is Open's 0 or the reserved 7 (`30_encoding.md` R53, R57). -/
theorem button_code_rest {c : BitVec 3} (h1 : c ≠ 1#3) (h2 : c ≠ 2#3) (h3 : c ≠ 3#3) (h4 : c ≠ 4#3) (h5 : c ≠ 5#3)
    (h6 : c ≠ 6#3) : (if c = 7#3 then 0#3 else c) = 0#3 := by
  split
  · rfl
  · bv_omega

/-- A poll sample is the encoding of its operation but for the button code 7, which is read as Open's 0 (`30_encoding.md` R57). -/
theorem encode_of_decode_p {w : BitVec 20} {i : Instr} (h : decode (.p w) = .operation i) :
    encode i = .p (pWord (pAuxN w) (if pBtn w = 7#3 then 0#3 else pBtn w) (pDelta w)) := by
  simp only [decode] at h
  unfold decodeP at h
  split at h <;> cases h
  case h_7 h1 h2 h3 h4 h5 h6 => rw [button_code_rest h1 h2 h3 h4 h5 h6]; rfl
  all_goals simp [encode, *]

/-- A store word that decodes to an operation has a slot index in range, and is LOAD or SAVE of it (`30_encoding.md` R54). -/
theorem decode_s_eq_operation {w : BitVec 3} {i : Instr} (h : decode (.s w) = .operation i) :
    slotInRange (sK w) = true ∧ i = if sW w then .save (sK w) else .load (sK w) := by
  simp only [decode, decodeS] at h
  split at h
  · cases h; exact ⟨‹_›, rfl⟩
  · cases h

theorem encode_of_decode_s {w : BitVec 3} {i : Instr} (h : decode (.s w) = .operation i) : encode i = .s w := by
  obtain ⟨-, rfl⟩ := decode_s_eq_operation h
  calc encode (if sW w then .save (sK w) else .load (sK w)) = .s (sWord (sW w) (sK w)) := by cases sW w <;> rfl
    _ = .s w := by rw [sWord_of_fields]

theorem encode_of_decode_t {w : BitVec 1} {i : Instr} (h : decode (.t w) = .operation i) : encode i = .t w := by
  simp only [decode, decodeT] at h
  split at h <;> cases h
  simp [encode, *]

theorem encode_of_decode_r {w : BitVec 1} {i : Instr} (h : decode (.r w) = .operation i) : encode i = .r w := by
  simp only [decode, decodeR] at h
  split at h <;> cases h
  simp [encode, *]

/-- Only well-formed operations are decoded: a store word names its slot index, any other word is no LOAD and no SAVE. -/
theorem wellFormed_of_decode {f : Frame} {i : Instr} (h : decode f = .operation i) : i.wellFormed = true := by
  cases f with
  | s w =>
    obtain ⟨hk, rfl⟩ := decode_s_eq_operation h
    split <;> exact hk
  | t w => exact wellFormed_of_not_micro (stimulus_not_micro (x := .t w) List.mem_cons_self h)
  | e w => exact wellFormed_of_not_micro (stimulus_not_micro (x := .e w) List.mem_cons_self h)
  | p w => exact wellFormed_of_not_micro (stimulus_not_micro (x := .p w) List.mem_cons_self h)
  | r w => exact wellFormed_of_not_micro (stimulus_not_micro (x := .r w) List.mem_cons_self h)

/-- Settles O2, format by format: a word is made of its fields, and the encoding keeps those that are not ignored. -/
theorem encodeOfDecodeIsTheWord : Obligations.EncodeOfDecodeIsTheWord := by
  refine fun f i h => ⟨wellFormed_of_decode h, ?_⟩
  cases f with
  | t w => exact encode_of_decode_t h
  | e w =>
    show encode i = if eCode w = 5#3 then .e w else .e (eWord (eCode w) 0#16)
    rw [encode_of_decode_e h]
    split
    · rw [eWord_of_fields]
    · rfl
  | p w =>
    show encode i = if pBtn w = 7#3 then .p (pWord (pAuxN w) 0#3 (pDelta w)) else .p w
    rw [encode_of_decode_p h]
    split
    · rfl
    · rw [pWord_of_fields]
  | s w => exact encode_of_decode_s h
  | r w => exact encode_of_decode_r h

/-! ### The rows of the opcode table (`30_encoding.md` R58) -/

/-- The bits a format's rows fix: the mask is the same in every row of a format. -/
def rowMask : Format → Nat
  | .t => 0x1
  | .e => 0x70000
  | .p => 0x70000
  | .s => 0x4
  | .r => 0x1

theorem rowOf_mask (i : Instr) : (rowOf i).mask = rowMask (rowOf i).format := by cases i <;> rfl

/-- A word has the pattern of an operation's row when it is in the row's format with the row's fixed bits. -/
theorem rowOf_hits_iff (i : Instr) (f : Frame) :
    (rowOf i).hits f = true ↔
      (rowOf i).format = f.format ∧ (rowOf i).pattern = f.bits &&& rowMask f.format := by
  rw [Row.hits, Bool.and_eq_true, beq_iff_eq, beq_iff_eq, rowOf_mask]
  refine and_congr_right fun hformat => ?_
  rw [hformat, eq_comm]

/-- Two operations whose rows one word has have the same row: its format and fixed bits are the word's. -/
theorem rowOf_eq_of_hits {i j : Instr} {f : Frame} (hi : (rowOf i).hits f = true) (hj : (rowOf j).hits f = true) :
    rowOf j = rowOf i := by
  obtain ⟨hif, hip⟩ := (rowOf_hits_iff i f).mp hi
  obtain ⟨hjf, hjp⟩ := (rowOf_hits_iff j f).mp hj
  have hformat : (rowOf j).format = (rowOf i).format := hjf.trans hif.symm
  have hpattern : (rowOf j).pattern = (rowOf i).pattern := hjp.trans hip.symm
  have hmask : (rowOf j).mask = (rowOf i).mask := by rw [rowOf_mask, rowOf_mask, hformat]
  show (⟨(rowOf j).format, (rowOf j).pattern, (rowOf j).mask⟩ : Row) = rowOf i
  rw [hformat, hpattern, hmask]

/-- The word of an operation has its row's pattern. -/
theorem rowOf_hits_encode (i : Instr) : (rowOf i).hits (encode i) = true := by
  cases i with
  | tick => exact Laws.TableRow.tick
  | start => exact Laws.TableRow.start
  | stop => exact Laws.TableRow.stop
  | cycleMode => exact Laws.TableRow.cycleMode
  | toggleEdit => exact Laws.TableRow.toggleEdit
  | adjust delta => exact Laws.TableRow.adjust delta
  | pollOpen auxN delta => exact Laws.TableRow.pollOpen auxN delta
  | pollClosed auxN delta => exact Laws.TableRow.pollClosed auxN delta
  | pollPressed auxN delta => exact Laws.TableRow.pollPressed auxN delta
  | pollHeld auxN delta => exact Laws.TableRow.pollHeld auxN delta
  | pollReleased auxN delta => exact Laws.TableRow.pollReleased auxN delta
  | pollClicked auxN delta => exact Laws.TableRow.pollClicked auxN delta
  | pollDoubleClicked auxN delta => exact Laws.TableRow.pollDoubleClicked auxN delta
  | load k => exact Laws.TableRow.load k
  | save k => exact Laws.TableRow.save k
  | reset => exact Laws.TableRow.reset

/-- The `arg` of an event word bears on no row. -/
theorem rowOf_hits_eWord (i : Instr) (code : BitVec 3) (arg arg' : Word) :
    (rowOf i).hits (.e (eWord code arg)) = true ↔ (rowOf i).hits (.e (eWord code arg')) = true := by
  simp only [rowOf_hits_iff, Frame.format, Frame.bits, rowMask, Laws.TableRow.event_bits]

/-- The button code of a poll sample, as a number. -/
theorem pBtn_toNat (w : BitVec 20) : (pBtn w).toNat = w.toNat / 65536 % 8 := by
  rw [pBtn, BitVec.extractLsb'_toNat, Nat.shiftRight_eq_div_pow]

/-- Every word that decodes to an operation has that operation's row, but for a poll sample with the button code 7. -/
theorem rowOf_hits_of_decode {f : Frame} {i : Instr} (h : decode f = .operation i)
    (hbtn : ∀ w, f = .p w → pBtn w ≠ 7#3) : (rowOf i).hits f = true := by
  have hrow := rowOf_hits_encode i
  cases f with
  | t w => rwa [encode_of_decode_t h] at hrow
  | e w =>
    rw [encode_of_decode_e h] at hrow
    rw [← eWord_of_fields w]
    exact (rowOf_hits_eWord i _ _ _).mp hrow
  | p w => rwa [encode_of_decode_p h, if_neg (hbtn w rfl), pWord_of_fields] at hrow
  | s w => rwa [encode_of_decode_s h] at hrow
  | r w => rwa [encode_of_decode_r h] at hrow

/-- No row has the button code 7 (`30_encoding.md` R57). -/
theorem rowOf_not_hits_btn7 (i : Instr) {w : BitVec 20} (h : pBtn w = 7#3) : (rowOf i).hits (.p w) = false := by
  have hpattern : (rowOf i).pattern ≠ 7 * 65536 := by cases i <;> simp [rowOf]
  refine Bool.eq_false_iff.mpr fun hhit => hpattern ?_
  obtain ⟨-, hbits⟩ := (rowOf_hits_iff i (.p w)).mp hhit
  have hfixed := Laws.TableRow.sample_bits (pAuxN w) (pBtn w) (pDelta w)
  rw [pWord_of_fields, h] at hfixed
  exact hbits.trans hfixed

/-- Settles O3: a word has its operation's row, and whatever row it has is the same; the button code 7 has none. -/
theorem wordHasItsRowAlone : Obligations.WordHasItsRowAlone := by
  intro f i j h
  split
  case isTrue h7 =>
    obtain ⟨hformat, hbits⟩ := h7
    cases f with
    | p w => exact rowOf_not_hits_btn7 j (BitVec.eq_of_toNat_eq ((pBtn_toNat w).trans hbits))
    | t w | e w | s w | r w => cases hformat
  case isFalse h7 =>
    have hi : (rowOf i).hits f = true := rowOf_hits_of_decode h fun w hw hbtn =>
      h7 ⟨hw ▸ rfl, by rw [hw, Frame.bits, ← pBtn_toNat, hbtn]; rfl⟩
    exact ⟨rowOf_eq_of_hits hi, fun hrow => by rwa [Row.hits, hrow]⟩

/-- Settles O4: the eight words, each evaluated. -/
theorem specWordsDecode : Obligations.SpecWordsDecode := by
  unfold Obligations.SpecWordsDecode; decide

/-! ### What a word does (`30_encoding.md` R54, R57) -/

theorem applyFrame_of_operation {f : Frame} {i : Instr} (h : decode f = .operation i) (s : State) :
    applyFrame f s = exec i s := by simp [applyFrame, h]

theorem applyFrame_of_noOperation {f : Frame} (h : decode f = .noOperation) (s : State) : applyFrame f s = .next s := by
  simp [applyFrame, h]

/-- A word with the reserved slot index is refused (`93_implementation_defined.md` V5). -/
theorem applyFrame_of_reservedSlot {f : Frame} (h : decode f = .reservedSlot) (s : State) :
    applyFrame f s = .refused .reservedSlot := by simp [applyFrame, h]

/-- A store word with k = 3 selects no operation. -/
theorem decode_sWord_reserved (w : Bool) : decode (.s (sWord w 3#2)) = .reservedSlot := by
  cases w <;> decide

theorem decode_pWord_btn7 (auxN : Bool) (delta : Word) :
    decode (.p (pWord auxN 7#3 delta)) = .operation (.pollOpen auxN delta) := by simp [decode, decodeP]

/-- The `arg` of an event word is read by code 5 alone (`30_encoding.md` R51). -/
theorem decode_eWord_arg {code : BitVec 3} (h : code ≠ 5#3) (arg : Word) :
    decode (.e (eWord code arg)) = decode (.e (eWord code 0#16)) := by
  simp only [decode, decodeE, eCode_eWord, eArg_eWord]
  split
  case h_5 => exact absurd rfl h
  all_goals rfl

/-- No well-formed operation has a store word with k = 3, which would decode back to it. -/
theorem encode_ne_reserved {i : Instr} (h : i.wellFormed = true) (w : Bool) : encode i ≠ .s (sWord w 3#2) := fun he => by
  have hback := decode_encode h
  rw [he, decode_sWord_reserved] at hback
  cases hback

/-- An event word whose `arg` is not read does what it does with `arg` = 0, the word of its operation if it has one. -/
theorem applyFrame_eWord_of_encode {code : BitVec 3} {i : Instr} (h : code ≠ 5#3) (hi : encode i = .e (eWord code 0#16))
    (hwf : i.wellFormed = true) (arg : Word) (s : State) : applyFrame (.e (eWord code arg)) s = exec i s :=
  applyFrame_of_operation ((decode_eWord_arg h arg).trans (hi ▸ decode_encode hwf)) s

/-- Settles O5: each word's meaning is what it decodes to, and an event word without a read `arg` is decoded by its code. -/
theorem reservedWordsDoNotTrap : Obligations.ReservedWordsDoNotTrap := by
  refine ⟨fun auxN delta => applyFrame_of_operation (decode_pWord_btn7 auxN delta), fun arg s => ⟨?_, ?_, ?_⟩,
    fun arg s => ⟨?_, ?_, ?_, ?_⟩, fun _ w h => encode_ne_reserved h w⟩
  · exact applyFrame_of_noOperation ((decode_eWord_arg (by decide) arg).trans (by decide)) s
  · exact applyFrame_of_noOperation ((decode_eWord_arg (by decide) arg).trans (by decide)) s
  · exact applyFrame_of_noOperation ((decode_eWord_arg (by decide) arg).trans (by decide)) s
  · exact applyFrame_eWord_of_encode (i := .start) (by decide) rfl rfl arg s
  · exact applyFrame_eWord_of_encode (i := .stop) (by decide) rfl rfl arg s
  · exact applyFrame_eWord_of_encode (i := .cycleMode) (by decide) rfl rfl arg s
  · exact applyFrame_eWord_of_encode (i := .toggleEdit) (by decide) rfl rfl arg s

/-- Settles O13: LOAD and SAVE find no index for k = 3, and the placed word decodes to the refusal. -/
theorem reservedSlotIsRefused : Obligations.ReservedSlotIsRefused :=
  ⟨fun _ => ⟨rfl, rfl⟩, fun _ w hp => (step_of_placed hp).trans (applyFrame_of_reservedSlot (decode_sWord_reserved w) _)⟩

end Sys2Proof.Machine
end

section
/-! SUPPORT. The codes of Mode and RunState (`30_encoding.md` R45, R46, R48; `00_scope.md` R5). -/

namespace Sys2Proof.Machine

/-- The code of a Mode is read back as that Mode, and no other code is. -/
theorem Mode.ofCode?_eq_some_iff (c : BitVec 2) (m : Mode) : Mode.ofCode? c = some m ↔ m.code = c := by
  constructor
  · intro h
    unfold Mode.ofCode? at h
    split at h <;> cases h <;> rfl
  · rintro rfl; cases m <;> rfl

/-- The code of a RunState is read back as that RunState, and no other code is. -/
theorem RunState.ofCode?_eq_some_iff (c : BitVec 4) (rs : RunState) : RunState.ofCode? c = some rs ↔ rs.code = c := by
  constructor
  · intro h
    unfold RunState.ofCode? at h
    split at h <;> cases h <;> rfl
  · rintro rfl; cases rs <;> rfl

theorem Mode.ofCode?_eq_none_iff : ∀ c, Mode.ofCode? c = none ↔ c = 3#2 := by decide

/-- A RunState code is reserved when its sub, the low half, or its class, the high half, is 3. -/
theorem RunState.ofCode?_eq_none_iff :
    ∀ c, RunState.ofCode? c = none ↔ c.extractLsb' 0 2 = 3#2 ∨ c.extractLsb' 2 2 = 3#2 := by decide

theorem Mode.next_code_toNat (m : Mode) : m.next.code.toNat = (m.code.toNat + 1) % 3 := by cases m <;> rfl

theorem Mode.view_code (m : Mode) : m.view.code = 0#2 ++ m.code := by cases m <;> rfl

/-- The class bits say which of the three predicates holds. -/
theorem RunState.class_bits (rs : RunState) :
    (rs.viewing = true ↔ rs.code.extractLsb' 2 2 = 0#2) ∧ (rs.pulsing = true ↔ rs.code.extractLsb' 2 2 = 1#2) ∧
      (rs.editing = true ↔ rs.code.extractLsb' 2 2 = 2#2) := by
  cases rs <;> decide

/-- Settles O6: the codes are R45's and R46's tables, and each clause about them is a lemma over the values or the codes. -/
theorem registerCodes : Obligations.RegisterCodes :=
  ⟨⟨rfl, rfl, rfl⟩, ⟨rfl, rfl, rfl, rfl, rfl, rfl, rfl, rfl, rfl⟩, Mode.next_code_toNat, Mode.ofCode?_eq_some_iff,
    Mode.ofCode?_eq_none_iff, RunState.ofCode?_eq_some_iff, RunState.ofCode?_eq_none_iff, RunState.class_bits,
    Mode.view_code⟩

end Sys2Proof.Machine
end

section
/-! SUPPORT. One step: the word presented, or the clock cycle of the pins (`30_encoding.md` R49; `20_memory.md` R38;
`60_exceptions.md` R141). -/

namespace Sys2Proof.Machine

/-- With a word's stimulus at the head of the list, a step applies that word. -/
theorem step_of_stimulus {s : State} {f : Frame} {x : Stimulus} {rest : List Stimulus} (hp : s.placed = none)
    (hx : f.stimulus? = some x) (hin : s.inputs = x :: rest) : step s = applyFrame f { s with inputs := rest } :=
  step_of_word hp hin (stimulusFrames_of_stimulus? hx)

/-- Settles O7: the word the step applies is the presented or the placed one, and its meaning is what it decodes to. -/
theorem stepRunsDecodedWord : Obligations.StepRunsDecodedWord :=
  ⟨fun _ _ _ _ _ hp hx hin hd => (step_of_stimulus hp hx hin).trans (applyFrame_of_operation hd _),
    fun _ _ _ hp hd => (step_of_placed hp).trans (applyFrame_of_operation hd _)⟩

/-- Settles O8: the word the step applies changes nothing, or there is none. -/
theorem stepOfNoOperation : Obligations.StepOfNoOperation :=
  ⟨fun _ _ _ _ hp hx hin hd => (step_of_stimulus hp hx hin).trans (applyFrame_of_noOperation hd _), fun _ => step_of_nil⟩

/-- The tick strobe's word is TICK. -/
theorem applyFrame_tickStb (s : State) : applyFrame (.t 1#1) s = exec .tick s := rfl

/-- The reset pin's word is RESET. -/
theorem applyFrame_rstN (s : State) : applyFrame (.r 0#1) s = exec .reset s := rfl

/-- Settles O9: the pins select the words of the cycle, which are applied in order. -/
theorem stepAppliesClockCycle : Obligations.StepAppliesClockCycle := by
  intro s pins rest i hp hin hd
  have hstep : step s = applyFrames (cycleFrames pins) { s with inputs := rest } := step_of_cons hp hin
  have hpoll := applyFrame_of_operation hd
  refine ⟨fun hr => ?_, fun hr ht hq => ?_, fun hr ht hq => ?_, fun hr ht hq => ?_, fun hr ht hq => ?_⟩
  · have hframes : cycleFrames pins = [.r 0#1] := by simp [cycleFrames, hr]
    rw [hstep, hframes, applyFrames_one, applyFrame_rstN]
  · have hframes : cycleFrames pins = [.t 1#1] := by simp [cycleFrames, hr, ht, hq]
    rw [hstep, hframes, applyFrames_one, applyFrame_tickStb]
  · have hframes : cycleFrames pins = [.p pins.pollSample] := by simp [cycleFrames, hr, ht, hq]
    rw [hstep, hframes, applyFrames_one, hpoll]
  · have hframes : cycleFrames pins = [] := by simp [cycleFrames, hr, ht, hq]
    rw [hstep, hframes, applyFrames_nil]
  · have hframes : cycleFrames pins = [.t 1#1, .p pins.pollSample] := by simp [cycleFrames, hr, ht, hq]
    refine ⟨tick { s with inputs := rest }, exec_tick _, ?_⟩
    rw [hstep, hframes, applyFrames_cons, applyFrame_tickStb, exec_tick, andThen_next, applyFrames_one, hpoll]

end Sys2Proof.Machine
end

section
/-! SUPPORT. TICK (`40_tick.md`): one equation per case (R65 to R69), what it leaves alone (R70), and any number of TICKs: the phases
of a sequence, and the three whole sequences made of them (R72 to R74). -/

namespace Sys2Proof.Machine

/-! ### One equation per case of TICK (`40_tick.md` R65 to R69) -/

/-- The level a TICK writes while the counter counts (`10_state.md` R16). -/
def Index.pulseLevel : Index → Level
  | .first => .high
  | .second => .high
  | .idle => .low

theorem State.not_reached {s : State} {k : Index} (h : s.counter k < s.duration k) : s.reached k = false := by
  rw [← Bool.not_eq_true, s.reached_iff]; exact BitVec.not_le.mpr h

theorem tick_of_not_pulsing {s : State} (h : s.runState.pulsing = false) : tick s = { s with outputLevel := .low } := by
  unfold tick
  cases hr : s.runState with
  | pulseFirst | pulseIdle | pulseSecond => rw [hr] at h; cases h
  | viewOnce | viewTwice | viewContinuous | editFirst | editSecond | editIdle => rfl

/-- Below its Duration, the active counter counts. -/
theorem tick_of_counter_lt {s : State} {k : Index} (hr : s.runState = k.pulseState) (h : s.counter k < s.duration k) :
    tick s = { s.count k with outputLevel := k.pulseLevel } := by
  have hnot := State.not_reached h
  cases k <;> simp [tick, tickPulseFirst, tickPulseSecond, tickPulseIdle, Index.pulseState, Index.pulseLevel, hr, hnot]

theorem tick_pulseFirst_once {s : State} (hr : s.runState = .pulseFirst) (h : s.pulse1 ≤ s.firstCounter)
    (hm : s.mode = .once) : tick s = { s with runState := .viewOnce, outputLevel := .low } := by
  simp [tick, tickPulseFirst, hr, hm, (s.reached_iff .first).mpr h]

theorem tick_pulseFirst_to_pulseIdle {s : State} (hr : s.runState = .pulseFirst) (h : s.pulse1 ≤ s.firstCounter)
    (hm : s.mode ≠ .once) : tick s = { s with runState := .pulseIdle, outputLevel := .high } := by
  simp [tick, tickPulseFirst, hr, hm, (s.reached_iff .first).mpr h]

theorem tick_pulseIdle_restart {s : State} (hr : s.runState = .pulseIdle) (h : s.idle ≤ s.idleCounter)
    (hm : s.mode = .continuous) : tick s = restartSequence s := by
  simp [tick, tickPulseIdle, hr, hm, (s.reached_iff .idle).mpr h]

theorem tick_pulseIdle_to_pulseSecond {s : State} (hr : s.runState = .pulseIdle) (h : s.idle ≤ s.idleCounter)
    (hm : s.mode ≠ .continuous) : tick s = { s with runState := .pulseSecond, outputLevel := .low } := by
  simp [tick, tickPulseIdle, hr, hm, (s.reached_iff .idle).mpr h]

theorem tick_pulseSecond_to_viewTwice {s : State} (hr : s.runState = .pulseSecond) (h : s.pulse2 ≤ s.secondCounter) :
    tick s = { s with runState := .viewTwice, outputLevel := .high } := by
  simp [tick, tickPulseSecond, hr, (s.reached_iff .second).mpr h]

/-- Settles O15: the three cases of TICK in PulseFirst. -/
theorem tickInPulseFirst : Obligations.TickInPulseFirst := fun _ hr =>
  ⟨fun h hm => congrArg _ (tick_pulseFirst_once hr h hm), fun h hm => congrArg _ (tick_pulseFirst_to_pulseIdle hr h hm),
    fun h => congrArg _ (tick_of_counter_lt (k := .first) hr h)⟩

/-- Settles O16: the three cases of TICK in PulseIdle, one of them the Continuous restart. -/
theorem tickInPulseIdle : Obligations.TickInPulseIdle := fun _ hr =>
  ⟨fun h hm => congrArg _ (tick_pulseIdle_restart hr h hm), fun h hm => congrArg _ (tick_pulseIdle_to_pulseSecond hr h hm),
    fun h => congrArg _ (tick_of_counter_lt (k := .idle) hr h)⟩

/-- Settles O17: the completion leaves the line HIGH in ViewTwice, where the second TICK writes LOW. -/
theorem tickInPulseSecond : Obligations.TickInPulseSecond := by
  refine fun s hr => ⟨fun h => ?_, fun h => congrArg _ (tick_of_counter_lt (k := .second) hr h)⟩
  have hfirst : exec .tick s = .next { s with runState := .viewTwice, outputLevel := .high } :=
    congrArg _ (tick_pulseSecond_to_viewTwice hr h)
  refine ⟨hfirst, ?_⟩
  rw [execAll_cons, hfirst]
  rfl

/-- Settles O19: each field R70 lists is one that TICK keeps. -/
theorem tickNeverTouches : Obligations.TickNeverTouches := fun s =>
  ⟨tick s, rfl, tick_mode s, tick_duration s .first, tick_duration s .second, tick_duration s .idle, tick_lpHandled s,
    tick_auxPrev s, tick_nvm s⟩

/-! ### Any number of TICKs -/

theorem execAll_ticks (n : Nat) (s : State) : execAll (List.replicate n .tick) s = .next (tick^[n] s) := by
  induction n generalizing s with
  | zero => rfl
  | succ n ih => exact ih (tick s)

/-- In a View or Edit state the first TICK writes LOW, and no other one changes anything. -/
theorem ticks_of_not_pulsing {s : State} (h : s.runState.pulsing = false) (n : Nat) :
    tick^[n] s = { s with outputLevel := if n = 0 then s.outputLevel else .low } := by
  cases n with
  | zero => rfl
  | succ n =>
    have hlow : tick { s with outputLevel := .low } = { s with outputLevel := .low } := tick_of_not_pulsing h
    rw [Function.iterate_succ_apply, tick_of_not_pulsing h, Function.iterate_fixed hlow, if_neg n.succ_ne_zero]

/-- Settles O18: each TICK but the first finds the line LOW already. -/
theorem ticksOutsideASequence : Obligations.TicksOutsideASequence := by
  intro s n h
  rw [execAll_ticks, ticks_of_not_pulsing h, if_neg n.succ_ne_zero]

/-! ### The phases of a sequence (`40_tick.md` R66 to R69)

In a phase the counter k of the active Pulse state counts from 0 up to its Duration; one TICK more completes the phase. -/

/-- The state n TICKs into the phase of counter k, entered in state s: the line keeps the level of the entry until the first
of them. -/
def State.intoPhase (s : State) (k : Index) (n : Nat) : State :=
  let level := if n = 0 then s.outputLevel else k.pulseLevel
  match k with
  | .first => { s with firstCounter := BitVec.ofNat 16 n, outputLevel := level }
  | .second => { s with secondCounter := BitVec.ofNat 16 n, outputLevel := level }
  | .idle => { s with idleCounter := BitVec.ofNat 16 n, outputLevel := level }

@[simp] theorem State.intoPhase_counter (s : State) (k : Index) (n : Nat) :
    (s.intoPhase k n).counter k = BitVec.ofNat 16 n := by cases k <;> rfl

@[simp] theorem State.intoPhase_duration (s : State) (k j : Index) (n : Nat) :
    (s.intoPhase k n).duration j = s.duration j := by cases k <;> cases j <;> rfl

@[simp] theorem State.intoPhase_runState (s : State) (k : Index) (n : Nat) : (s.intoPhase k n).runState = s.runState := by
  cases k <;> rfl

@[simp] theorem State.intoPhase_mode (s : State) (k : Index) (n : Nat) : (s.intoPhase k n).mode = s.mode := by
  cases k <;> rfl

theorem State.intoPhase_zero {s : State} {k : Index} (h : s.counter k = 0#16) : s.intoPhase k 0 = s := by
  cases s; cases k <;> cases h <;> rfl

/-- A count is one TICK further into the phase. -/
theorem State.count_intoPhase (s : State) (k : Index) (n : Nat) :
    { (s.intoPhase k n).count k with outputLevel := k.pulseLevel } = s.intoPhase k (n + 1) := by
  cases k <;> simp [State.intoPhase, State.count, BitVec.ofNat_add]

/-- At the end of the phase the comparator of its counter is on. -/
theorem State.intoPhase_reached (s : State) (k : Index) :
    (s.intoPhase k (s.duration k).toNat).duration k ≤ (s.intoPhase k (s.duration k).toNat).counter k := by
  simp

/-- Up to its Duration the counter of the phase counts every TICK. -/
theorem ticks_intoPhase {s : State} {k : Index} (hr : s.runState = k.pulseState) (h0 : s.counter k = 0#16) {n : Nat}
    (hn : n ≤ (s.duration k).toNat) : tick^[n] s = s.intoPhase k n := by
  induction n with
  | zero => exact (State.intoPhase_zero h0).symm
  | succ n ih =>
    have hlt : (s.intoPhase k n).counter k < (s.intoPhase k n).duration k := by
      rw [s.intoPhase_counter, s.intoPhase_duration, BitVec.lt_def, BitVec.toNat_ofNat]
      exact (Nat.mod_le _ _).trans_lt hn
    rw [Function.iterate_succ_apply', ih (Nat.le_of_succ_le hn), tick_of_counter_lt (by simpa using hr) hlt,
      s.count_intoPhase]

/-- The TICK after the last count starts at the end of the phase. -/
theorem ticks_phase {s : State} {k : Index} (hr : s.runState = k.pulseState) (h0 : s.counter k = 0#16) :
    tick^[(s.duration k).toNat + 1] s = tick (s.intoPhase k (s.duration k).toNat) := by
  rw [Function.iterate_succ_apply', ticks_intoPhase hr h0 le_rfl]

/-- The whole of PulseFirst in Mode Once (R66). -/
theorem ticks_pulseFirst_once {s : State} (hr : s.runState = .pulseFirst) (h0 : s.firstCounter = 0#16)
    (hm : s.mode = .once) : tick^[s.pulse1.toNat + 1] s =
      { s with runState := .viewOnce, outputLevel := .low, firstCounter := s.pulse1 } := by
  refine (ticks_phase (k := .first) hr h0).trans ?_
  rw [tick_pulseFirst_once (by simpa using hr) (s.intoPhase_reached .first) (by simpa using hm)]
  simp [State.intoPhase, State.duration]

/-- The whole of PulseFirst in the other two Modes (R66). -/
theorem ticks_pulseFirst_to_pulseIdle {s : State} (hr : s.runState = .pulseFirst) (h0 : s.firstCounter = 0#16)
    (hm : s.mode ≠ .once) : tick^[s.pulse1.toNat + 1] s =
      { s with runState := .pulseIdle, outputLevel := .high, firstCounter := s.pulse1 } := by
  refine (ticks_phase (k := .first) hr h0).trans ?_
  rw [tick_pulseFirst_to_pulseIdle (by simpa using hr) (s.intoPhase_reached .first) (by simpa using hm)]
  simp [State.intoPhase, State.duration]

/-- The whole of PulseIdle in Continuous: the sequence restarts (R68). -/
theorem ticks_pulseIdle_restart {s : State} (hr : s.runState = .pulseIdle) (h0 : s.idleCounter = 0#16)
    (hm : s.mode = .continuous) : tick^[s.idle.toNat + 1] s = restartSequence s := by
  refine (ticks_phase (k := .idle) hr h0).trans ?_
  rw [tick_pulseIdle_restart (by simpa using hr) (s.intoPhase_reached .idle) (by simpa using hm)]
  rfl

/-- The whole of PulseIdle before a second pulse (R67). -/
theorem ticks_pulseIdle_to_pulseSecond {s : State} (hr : s.runState = .pulseIdle) (h0 : s.idleCounter = 0#16)
    (hm : s.mode ≠ .continuous) : tick^[s.idle.toNat + 1] s =
      { s with runState := .pulseSecond, outputLevel := .low, idleCounter := s.idle } := by
  refine (ticks_phase (k := .idle) hr h0).trans ?_
  rw [tick_pulseIdle_to_pulseSecond (by simpa using hr) (s.intoPhase_reached .idle) (by simpa using hm)]
  simp [State.intoPhase, State.duration]

/-- The whole of PulseSecond (R69). -/
theorem ticks_pulseSecond_to_viewTwice {s : State} (hr : s.runState = .pulseSecond) (h0 : s.secondCounter = 0#16) :
    tick^[s.pulse2.toNat + 1] s =
      { s with runState := .viewTwice, outputLevel := .high, secondCounter := s.pulse2 } := by
  refine (ticks_phase (k := .second) hr h0).trans ?_
  rw [tick_pulseSecond_to_viewTwice (by simpa using hr) (s.intoPhase_reached .second)]
  simp [State.intoPhase, State.duration]

/-! ### Whole sequences (`40_tick.md` R72 to R74) -/

/-- The state START leaves, entered from a View state (`41_run_events.md` R80). -/
def State.started (s : State) : State := { s.zeroCounters with runState := .pulseFirst }

/-- The state in which a sequence that START began in s enters PulseIdle. -/
def State.idleEntry (s : State) : State :=
  { s.started with runState := .pulseIdle, outputLevel := .high, firstCounter := s.pulse1 }

/-- The state in which a sequence that START began in s enters PulseSecond. -/
def State.secondEntry (s : State) : State :=
  { s.idleEntry with runState := .pulseSecond, outputLevel := .low, idleCounter := s.idle }

/-- The state in which a Twice sequence that START began in s ends. -/
def State.twiceEnd (s : State) : State :=
  { s.secondEntry with runState := .viewTwice, outputLevel := .high, secondCounter := s.pulse2 }

theorem execAll_start_ticks {s : State} (h : s.runState.viewing = true) (n : Nat) :
    execAll (.start :: List.replicate n .tick) s = .next (tick^[n] s.started) := by
  have hstart : startSequence s = s.started := if_pos h
  rw [execAll_cons, exec_start, andThen_next, hstart, execAll_ticks]

/-- Past the first a TICKs, the run goes on from the state they led to. -/
theorem ticks_after {s u : State} {a n : Nat} (h : tick^[a] s = u) (hn : a ≤ n) : tick^[n] s = tick^[n - a] u := by
  rw [← h, ← Function.iterate_add_apply, Nat.sub_add_cancel hn]

theorem ticks_to_idleEntry {s : State} (hm : s.mode ≠ .once) : tick^[s.pulse1.toNat + 1] s.started = s.idleEntry :=
  ticks_pulseFirst_to_pulseIdle (s := s.started) rfl rfl hm

theorem ticks_to_secondEntry {s : State} (hm : s.mode = .twice) :
    tick^[s.pulse1.toNat + s.idle.toNat + 2] s.started = s.secondEntry := by
  have hcont : s.mode ≠ .continuous := by simp [hm]
  rw [ticks_after (ticks_to_idleEntry (by simp [hm])) (by omega),
    show s.pulse1.toNat + s.idle.toNat + 2 - (s.pulse1.toNat + 1) = s.idle.toNat + 1 by omega]
  exact ticks_pulseIdle_to_pulseSecond (s := s.idleEntry) rfl rfl hcont

theorem ticks_to_twiceEnd {s : State} (hm : s.mode = .twice) :
    tick^[s.pulse1.toNat + s.idle.toNat + s.pulse2.toNat + 3] s.started = s.twiceEnd := by
  rw [ticks_after (ticks_to_secondEntry hm) (by omega),
    show s.pulse1.toNat + s.idle.toNat + s.pulse2.toNat + 3 - (s.pulse1.toNat + s.idle.toNat + 2) =
      s.pulse2.toNat + 1 by omega]
  exact ticks_pulseSecond_to_viewTwice (s := s.secondEntry) rfl rfl

/-- One period of a Continuous sequence ends where it began, but with the line LOW (R68). -/
theorem ticks_period {s : State} (hm : s.mode = .continuous) :
    tick^[s.pulse1.toNat + s.idle.toNat + 2] s.started = { s with outputLevel := .low }.started := by
  rw [ticks_after (ticks_to_idleEntry (by simp [hm])) (by omega),
    show s.pulse1.toNat + s.idle.toNat + 2 - (s.pulse1.toNat + 1) = s.idle.toNat + 1 by omega]
  exact ticks_pulseIdle_restart (s := s.idleEntry) rfl rfl hm

/-- So n periods end where they began, but for the level of the line. -/
theorem ticks_periods {s : State} (hm : s.mode = .continuous) (n : Nat) :
    ∃ level, tick^[n * (s.pulse1.toNat + s.idle.toNat + 2)] s.started = { s with outputLevel := level }.started := by
  induction n generalizing s with
  | zero => exact ⟨s.outputLevel, by rw [Nat.zero_mul]; rfl⟩
  | succ n ih =>
    rw [Nat.succ_mul, Function.iterate_add_apply, ticks_period hm]
    exact ih (s := { s with outputLevel := .low }) hm

theorem ticks_in_pulseFirst {s : State} {n : Nat} (hn : n < s.pulse1.toNat) :
    tick^[n + 1] s.started = { s.started with outputLevel := .high, firstCounter := BitVec.ofNat 16 (n + 1) } :=
  ticks_intoPhase (s := s.started) (k := .first) rfl rfl hn

theorem ticks_in_pulseIdle {s : State} {n : Nat} (hn : n ≤ s.idle.toNat) :
    tick^[n] s.idleEntry =
      { s.idleEntry with outputLevel := if n = 0 then .high else .low, idleCounter := BitVec.ofNat 16 n } :=
  ticks_intoPhase (s := s.idleEntry) (k := .idle) rfl rfl hn

theorem ticks_in_pulseSecond {s : State} {n : Nat} (hn : n ≤ s.pulse2.toNat) :
    tick^[n] s.secondEntry =
      { s.secondEntry with outputLevel := if n = 0 then .low else .high, secondCounter := BitVec.ofNat 16 n } :=
  ticks_intoPhase (s := s.secondEntry) (k := .second) rfl rfl hn

/-- Settles O22: t + 1 TICKs lie within PulseFirst, or lead through it into ViewOnce. -/
theorem onceSequence : Obligations.OnceSequence := by
  intro s t hv hm
  rw [execAll_start_ticks hv]
  congr 1
  split
  next ht => exact ticks_in_pulseFirst ht
  next ht =>
    have hend := ticks_pulseFirst_once (s := s.started) rfl rfl hm
    rw [ticks_after hend (Nat.succ_le_succ (not_lt.mp ht)), ticks_of_not_pulsing rfl, ite_self]
    rfl

/-- Settles O23: t + 1 TICKs lead past the phases that end by A, B and C and t - A, t - B or t - C further. -/
theorem twiceSequence : Obligations.TwiceSequence := by
  intro s t A B C hv hm hA hB hC
  have hidle : tick^[A + 1] s.started = s.idleEntry := hA ▸ ticks_to_idleEntry (by simp [hm])
  have hsecond : tick^[B + 1] s.started = s.secondEntry := hB ▸ ticks_to_secondEntry hm
  have hview : tick^[C + 1] s.started = s.twiceEnd := hC ▸ ticks_to_twiceEnd hm
  rw [execAll_start_ticks hv]
  congr 1
  split
  next ht => exact ticks_in_pulseFirst (hA ▸ ht)
  split
  next htA ht =>
    have hlevel : t - A = 0 ↔ t = A := by omega
    rw [ticks_after hidle (by omega), Nat.add_sub_add_right, ticks_in_pulseIdle (by omega)]
    simp only [hlevel]; rfl
  split
  next htB ht =>
    have hlevel : t - B = 0 ↔ t = B := by omega
    rw [ticks_after hsecond (by omega), Nat.add_sub_add_right, ticks_in_pulseSecond (by omega)]
    simp only [hlevel]; rfl
  next htC =>
    have hlevel : t - C = 0 ↔ t = C := by omega
    rw [ticks_after hview (by omega), Nat.add_sub_add_right, ticks_of_not_pulsing rfl]
    simp only [hlevel]; rfl

/-- Settles O24: n periods lead back to the start, and j + 1 TICKs more lie within PulseFirst, lead through it into PulseIdle, or
make one period more. -/
theorem continuousSequence : Obligations.ContinuousSequence := by
  intro s n j L hv hm hL hj
  obtain ⟨level, hperiods⟩ := ticks_periods hm n
  have hrest : tick^[n * L + j + 1] s.started = tick^[j + 1] { s with outputLevel := level }.started := by
    rw [Nat.add_assoc, Nat.add_comm, Function.iterate_add_apply, hL, hperiods]
  rw [execAll_start_ticks hv, hrest]
  congr 1
  split
  next hj1 => exact ticks_in_pulseFirst (s := { s with outputLevel := level }) hj1
  split
  next hj1 hj2 =>
    have hlevel : j - s.pulse1.toNat = 0 ↔ j = s.pulse1.toNat := by omega
    have hidle := ticks_to_idleEntry (s := { s with outputLevel := level }) (by simp [hm])
    rw [ticks_after hidle (by dsimp only; omega), Nat.add_sub_add_right,
      ticks_in_pulseIdle (s := { s with outputLevel := level }) (by dsimp only; omega)]
    simp only [hlevel]; rfl
  next hj2 =>
    obtain rfl : j = s.pulse1.toNat + s.idle.toNat + 1 := by omega
    exact ticks_period (s := { s with outputLevel := level }) hm

end Sys2Proof.Machine
end

section
/-! SUPPORT. The run events (`41_run_events.md`): what START, STOP and CYCLEMODE do (R80, R82, R84), what a running sequence shuts
out (R86), and that nothing but TICKs moves a Once or Twice sequence on (R83). -/

namespace Sys2Proof.Machine

/-! ### START, STOP and CYCLEMODE (`41_run_events.md` R80, R82, R84) -/

theorem startSequence_of_viewing {s : State} (h : s.runState.viewing = true) : startSequence s = s.started := if_pos h

theorem startSequence_of_not_viewing {s : State} (h : s.runState.viewing = false) : startSequence s = s :=
  if_neg (Bool.eq_false_iff.mp h)

theorem stopSequence_of_continuous {s : State} (hp : s.runState.pulsing = true) (hm : s.mode = .continuous) :
    stopSequence s = { s with runState := .viewContinuous } := if_pos ⟨hp, hm⟩

theorem stopSequence_of_ignored {s : State} (h : ¬ (s.runState.pulsing = true ∧ s.mode = .continuous)) :
    stopSequence s = s := if_neg h

theorem cycleMode_of_pulsing {s : State} (h : s.runState.pulsing = true) : cycleMode s = s := if_pos h

theorem cycleMode_of_not_pulsing {s : State} (h : s.runState.pulsing = false) :
    cycleMode s = { s with mode := s.mode.next, runState := s.mode.next.view } := if_neg (Bool.eq_false_iff.mp h)

/-- Settles O26: the two branches of START. -/
theorem startResult : Obligations.StartResult := fun _ =>
  ⟨fun h => congrArg _ (startSequence_of_viewing h), fun h => congrArg _ (startSequence_of_not_viewing h)⟩

/-- Settles O27: the two branches of STOP. -/
theorem stopResult : Obligations.StopResult := fun _ =>
  ⟨fun hp hm => congrArg _ (stopSequence_of_continuous hp hm), fun h => congrArg _ (stopSequence_of_ignored h)⟩

/-- Settles O28: the two branches of CYCLEMODE. -/
theorem cycleModeResult : Obligations.CycleModeResult := fun _ =>
  ⟨fun h => congrArg _ (cycleMode_of_not_pulsing h), fun h => congrArg _ (cycleMode_of_pulsing h)⟩

/-! ### Core events during a sequence (`41_run_events.md` R86) -/

theorem RunState.not_viewing_of_pulsing {rs : RunState} (h : rs.pulsing = true) : rs.viewing = false := by
  cases rs <;> cases h <;> rfl

theorem RunState.not_editing_of_pulsing {rs : RunState} (h : rs.pulsing = true) : rs.editing = false := by
  cases rs <;> cases h <;> rfl

theorem editMove_of_pulsing {rs : RunState} (h : rs.pulsing = true) (m : Mode) : editMove rs m = none := by
  cases rs <;> cases h <;> rfl

theorem toggleEdit_of_pulsing {s : State} (h : s.runState.pulsing = true) : toggleEdit s = s := by
  rw [toggleEdit, editMove_of_pulsing h]

theorem adjust_of_pulsing {s : State} (h : s.runState.pulsing = true) (delta : Word) : adjust delta s = s := by
  rcases adjust_cases delta s with ⟨k, hk, -⟩ | ⟨-, e⟩
  · simp [RunState.not_pulsing_of_editIndex? hk] at h
  · exact e

/-- During a sequence every core event but a STOP in Continuous is ignored. -/
theorem deliver_of_pulsing {e : CoreEvent} {s : State} (h : s.runState.pulsing = true)
    (he : e ≠ .stop ∨ s.mode ≠ .continuous) : deliver e s = s := by
  cases e with
  | start => exact startSequence_of_not_viewing (RunState.not_viewing_of_pulsing h)
  | stop => exact stopSequence_of_ignored fun hc => he.elim (absurd rfl) (absurd hc.2)
  | cycleMode => exact cycleMode_of_pulsing h
  | toggleEdit => exact toggleEdit_of_pulsing h
  | adjustValue delta => exact adjust_of_pulsing h delta

/-- A core operation that is no STOP, or comes in another Mode than Continuous, is ignored during a sequence. -/
theorem exec_core_of_pulsing {i : Instr} {s : State} (h : s.runState.pulsing = true) (hi : isCore i = true)
    (hstop : i ≠ .stop ∨ s.mode ≠ .continuous) : exec i s = .next s := by
  obtain ⟨e, rfl⟩ := (isCore_iff i).mp hi
  have hevent : e ≠ .stop ∨ s.mode ≠ .continuous := hstop.imp_left (mt (congrArg CoreEvent.instr))
  rw [exec_coreInstr, deliver_of_pulsing h hevent]

/-! ### Mode and Durations during a sequence (`41_run_events.md` R86) -/

/-- Two states with the same Mode and the same Durations. -/
def State.SameSettings (s t : State) : Prop := t.mode = s.mode ∧ ∀ k, t.duration k = s.duration k

theorem State.SameSettings.trans {s t u : State} (h : s.SameSettings t) (h' : t.SameSettings u) : s.SameSettings u :=
  ⟨h'.1.trans h.1, fun k => (h'.2 k).trans (h.2 k)⟩

/-- The state with other detector bits (`10_state.md` R20, R21). -/
def State.withDetectors (lp aux : Bool) (s : State) : State := { s with lpHandled := lp, auxPrev := aux }

@[simp] theorem State.withDetectors_runState (lp aux : Bool) (s : State) :
    (s.withDetectors lp aux).runState = s.runState := rfl
@[simp] theorem State.withDetectors_mode (lp aux : Bool) (s : State) : (s.withDetectors lp aux).mode = s.mode := rfl
@[simp] theorem State.withDetectors_withDetectors (lp aux lp' aux' : Bool) (s : State) :
    (s.withDetectors lp aux).withDetectors lp' aux' = s.withDetectors lp' aux' := rfl

theorem withDetectors_sameSettings (lp aux : Bool) (s : State) : s.SameSettings (s.withDetectors lp aux) :=
  ⟨rfl, fun k => by cases k <;> rfl⟩

theorem tick_sameSettings (s : State) : s.SameSettings (tick s) := ⟨tick_mode s, tick_duration s⟩

theorem startSequence_sameSettings (s : State) : s.SameSettings (startSequence s) :=
  ⟨startSequence_mode s, startSequence_duration s⟩

theorem stopSequence_sameSettings (s : State) : s.SameSettings (stopSequence s) :=
  ⟨stopSequence_mode s, stopSequence_duration s⟩

/-- During a sequence a core event is ignored, or is a STOP, which writes RunState alone. -/
theorem deliver_sameSettings_of_pulsing {s : State} (h : s.runState.pulsing = true) (e : CoreEvent) :
    s.SameSettings (deliver e s) := by
  by_cases he : e = .stop
  · subst he; exact stopSequence_sameSettings s
  · rw [deliver_of_pulsing h (.inl he)]; exact ⟨rfl, fun _ => rfl⟩

theorem rotationStep_of_pulsing {s : State} (h : s.runState.pulsing = true) (delta : Word) : rotationStep delta s = s := by
  simp [rotationStep, rotationEvent, RunState.not_editing_of_pulsing h, send]

theorem buttonStep_sameSettings_of_pulsing {s : State} (h : s.runState.pulsing = true) (btn : Button) :
    s.SameSettings (buttonStep btn s) := by
  have hbit := withDetectors_sameSettings (lpAfter btn s.lpHandled) s.auxPrev s
  unfold buttonStep
  cases buttonEvent btn s with
  | none => exact hbit
  | some e =>
    exact hbit.trans (deliver_sameSettings_of_pulsing (s := s.withDetectors (lpAfter btn s.lpHandled) s.auxPrev) h e)

/-- The auxiliary switch sends START, STOP or nothing, so it moves no setting, after a STOP of the button too. -/
theorem auxStep_sameSettings (s : State) (auxN : Bool) : s.SameSettings (auxStep auxN s) := by
  have hbit := withDetectors_sameSettings s.lpHandled (auxPressed auxN) s
  unfold auxStep auxEvent
  split
  · rcases clickEvent_cases s.runState s.mode with h | h | h <;> rw [h]
    · exact hbit.trans (startSequence_sameSettings _)
    · exact hbit.trans (stopSequence_sameSettings _)
    · exact hbit
  · exact hbit

theorem poll_sameSettings_of_pulsing {s : State} (h : s.runState.pulsing = true) (btn : Button) (auxN : Bool)
    (delta : Word) : s.SameSettings (poll btn auxN delta s) := by
  rw [poll, rotationStep_of_pulsing h]
  exact (buttonStep_sameSettings_of_pulsing h btn).trans (auxStep_sameSettings _ auxN)

theorem exec_sameSettings_of_pulsing {i : Instr} {s t : State} (hp : s.runState.pulsing = true)
    (hi : isCore i = true ∨ isPoll i = true ∨ i = .tick) (h : exec i s = .next t) : s.SameSettings t := by
  rcases hi with hi | hi | rfl
  · obtain ⟨e, rfl⟩ := (isCore_iff i).mp hi
    rw [exec_coreInstr] at h; cases h; exact deliver_sameSettings_of_pulsing hp e
  · obtain ⟨btn, auxN, delta, rfl⟩ := (isPoll_iff i).mp hi
    rw [exec_pollInstr] at h; cases h; exact poll_sameSettings_of_pulsing hp btn auxN delta
  · cases h; exact tick_sameSettings s

/-! ### Polls during a Once or Twice sequence (`41_run_events.md` R83) -/

/-- In Once and Twice a poll changes nothing but the detector bits: every event it may send is ignored. -/
theorem poll_of_pulsing {s : State} (hp : s.runState.pulsing = true) (hm : s.mode ≠ .continuous) (btn : Button)
    (auxN : Bool) (delta : Word) : ∃ lp aux, poll btn auxN delta s = s.withDetectors lp aux := by
  refine poll_keeps (P := fun u => ∃ lp aux, u = s.withDetectors lp aux) ?_ ?_ ?_ btn auxN delta ⟨_, _, rfl⟩
  · rintro e u ⟨lp, aux, rfl⟩
    exact ⟨lp, aux, deliver_of_pulsing hp (.inr hm)⟩
  · rintro u b ⟨-, aux, rfl⟩; exact ⟨b, aux, rfl⟩
  · rintro u b ⟨lp, -, rfl⟩; exact ⟨lp, b, rfl⟩

theorem exec_poll_of_pulsing {i : Instr} {s t : State} (hp : s.runState.pulsing = true) (hm : s.mode ≠ .continuous)
    (hi : isPoll i = true) (h : exec i s = .next t) : ∃ lp aux, t = s.withDetectors lp aux := by
  obtain ⟨btn, auxN, delta, rfl⟩ := (isPoll_iff i).mp hi
  rw [exec_pollInstr] at h
  cases h
  exact poll_of_pulsing hp hm btn auxN delta

/-- Settles O30: the core events are ignored one by one, each channel of a poll keeps the settings, and in Once and Twice a poll
leaves its detector bits alone behind. -/
theorem sequenceShutsOutEvents : Obligations.SequenceShutsOutEvents := by
  refine fun s hp => ⟨fun i => exec_core_of_pulsing hp, fun i t => exec_sameSettings_of_pulsing hp,
    fun i t hi hm h => ?_⟩
  obtain ⟨lp, aux, rfl⟩ := exec_poll_of_pulsing hp hm hi h
  rfl

/-! ### The length of a Once or Twice sequence (`41_run_events.md` R83) -/

/-- TICK neither reads nor writes the detector bits (`40_tick.md` R70). -/
theorem tick_withDetectors (lp aux : Bool) (s : State) :
    tick (s.withDetectors lp aux) = (tick s).withDetectors lp aux := by
  unfold tick
  rw [State.withDetectors_runState]
  cases s.runState with
  | pulseFirst => simp only [tickPulseFirst, apply_ite (State.withDetectors lp aux)]; rfl
  | pulseIdle => simp only [tickPulseIdle, apply_ite (State.withDetectors lp aux)]; rfl
  | pulseSecond => simp only [tickPulseSecond, apply_ite (State.withDetectors lp aux)]; rfl
  | viewOnce | viewTwice | viewContinuous | editFirst | editSecond | editIdle => rfl

theorem ticks_withDetectors (lp aux : Bool) (s : State) (n : Nat) :
    tick^[n] (s.withDetectors lp aux) = (tick^[n] s).withDetectors lp aux :=
  Function.Commute.iterate_left (f := tick) (g := State.withDetectors lp aux) (tick_withDetectors lp aux) n s

theorem ticks_mode (s : State) (n : Nat) : (tick^[n] s).mode = s.mode := by
  induction n generalizing s with
  | zero => rfl
  | succ n ih => exact (ih (tick s)).trans (tick_mode s)

/-- TICKs start no sequence: one that runs after n of them ran all along. -/
theorem pulsing_of_ticks_pulsing {s : State} {n m : Nat} (h : (tick^[n] s).runState.pulsing = true) (hm : m ≤ n) :
    (tick^[m] s).runState.pulsing = true := by
  induction n, hm using Nat.le_induction with
  | base => exact h
  | succ n _ ih =>
    rw [Function.iterate_succ_apply'] at h
    exact ih (pulsing_of_tick_pulsing h)

/-- During a Once or Twice sequence an operation other than TICK changes nothing but the detector bits. -/
theorem exec_event_of_pulsing {i : Instr} {s t : State} (hp : s.runState.pulsing = true) (hm : s.mode ≠ .continuous)
    (hi : isCore i = true ∨ isPoll i = true) (h : exec i s = .next t) : ∃ lp aux, t = s.withDetectors lp aux := by
  rcases hi with hi | hi
  · rw [exec_core_of_pulsing hp hi (.inr hm)] at h
    cases h
    exact ⟨s.lpHandled, s.auxPrev, rfl⟩
  · exact exec_poll_of_pulsing hp hm hi h

/-- As long as its TICKs alone do not end a Once or Twice sequence, a run over any polls and core events between them leads where
its TICKs alone lead, but for the detector bits. -/
theorem execAll_eq_ticks {ops : List Instr} (hops : ∀ i ∈ ops, i = .tick ∨ isCore i = true ∨ isPoll i = true)
    {s t : State} (hm : s.mode ≠ .continuous) (hp : (tick^[ops.count .tick] s).runState.pulsing = true)
    (h : execAll ops s = .next t) : ∃ lp aux, t = (tick^[ops.count .tick] s).withDetectors lp aux := by
  induction ops generalizing s with
  | nil => cases h; exact ⟨_, _, rfl⟩
  | cons i ops ih =>
    obtain ⟨u, hu, ht⟩ := andThen_eq_next h
    have hrest := fun j hj => hops j (List.mem_cons_of_mem i hj)
    by_cases hi : i = .tick
    · subst hi
      cases hu
      rw [List.count_cons_self] at hp ⊢
      exact ih hrest ((tick_mode s).trans_ne hm) hp ht
    · rw [List.count_cons_of_ne hi] at hp ⊢
      have hevent := (hops i List.mem_cons_self).resolve_left hi
      have hs : s.runState.pulsing = true := pulsing_of_ticks_pulsing hp (Nat.zero_le _)
      obtain ⟨lp, aux, rfl⟩ := exec_event_of_pulsing hs hm hevent hu
      obtain ⟨lp', aux', rfl⟩ := ih (s := s.withDetectors lp aux) hrest hm (by rwa [ticks_withDetectors]) ht
      exact ⟨lp', aux', by rw [ticks_withDetectors, State.withDetectors_withDetectors]⟩

/-- The TICKs of a whole Once or Twice sequence, with nothing between them: it runs up to the last of them, which ends it. -/
theorem ticks_of_sequence {s : State} {n : Nat} (hn : s.mode = .once ∧ n = s.pulse1.toNat + 1 ∨
      s.mode = .twice ∧ n = s.pulse1.toNat + s.idle.toNat + s.pulse2.toNat + 3) :
    (∀ m < n, (tick^[m] s.started).runState.pulsing = true) ∧ (tick^[n] s.started).runState = s.mode.view := by
  rcases hn with ⟨hm, rfl⟩ | ⟨hm, rfl⟩
  · have hlast : (tick^[s.pulse1.toNat] s.started).runState = .pulseFirst :=
      congrArg State.runState (ticks_intoPhase (s := s.started) (k := .first) rfl rfl le_rfl)
    refine ⟨fun m h => pulsing_of_ticks_pulsing (by rw [hlast]; rfl) (Nat.le_of_lt_succ h), ?_⟩
    rw [hm]
    exact congrArg State.runState (ticks_pulseFirst_once (s := s.started) rfl rfl hm)
  · have hlast : (tick^[s.pulse1.toNat + s.idle.toNat + s.pulse2.toNat + 2] s.started).runState = .pulseSecond := by
      rw [ticks_after (ticks_to_secondEntry hm) (by omega), ticks_in_pulseSecond (by omega)]; rfl
    refine ⟨fun m h => pulsing_of_ticks_pulsing (by rw [hlast]; rfl) (Nat.le_of_lt_succ h), ?_⟩
    rw [ticks_to_twiceEnd hm, hm]; rfl

theorem execAll_start {s : State} (h : s.runState.viewing = true) (ops : List Instr) :
    execAll (.start :: ops) s = execAll ops s.started := by
  rw [execAll_cons, exec_start, andThen_next, startSequence_of_viewing h]

/-- Settles O25: a run of fewer than n TICKs leads, but for the detector bits, where these TICKs alone lead, which is within the
sequence; so the TICK that makes them n ends it. -/
theorem sequenceLengthUnderEvents : Obligations.SequenceLengthUnderEvents := by
  intro s t ops n hv hn hops
  have hm : s.started.mode ≠ .continuous := by rcases hn with ⟨h, -⟩ | ⟨h, -⟩ <;> simp [State.started, h]
  obtain ⟨hruns, hend⟩ := ticks_of_sequence hn
  have hmode (m : Nat) : (tick^[m] s.started).mode = s.mode := ticks_mode s.started m
  rw [execAll_start hv, execAll_start hv, execAll_append]
  refine ⟨fun hlt h => ?_, fun hlast h => ?_⟩
  · obtain ⟨lp, aux, rfl⟩ := execAll_eq_ticks hops hm (hruns _ hlt) h
    exact ⟨hruns _ hlt, hmode _⟩
  · subst hlast
    obtain ⟨u, hu, ht⟩ := andThen_eq_next h
    obtain ⟨lp, aux, rfl⟩ := execAll_eq_ticks hops hm (hruns _ (Nat.lt_succ_self _)) hu
    have htick : t = (tick^[ops.count .tick + 1] s.started).withDetectors lp aux := by
      cases ht
      rw [tick_withDetectors, ← Function.iterate_succ_apply' tick]
    rw [htick]
    exact ⟨hend, hmode _⟩

end Sys2Proof.Machine
end

section
/-! SUPPORT. The edit events (`42_edit_events.md`): where TOGGLEEDIT leads and what it stores (R90 to R94, R97), what ADJUST
leaves in a Duration (R95, R96), and whole edit sessions (R98). -/

namespace Sys2Proof.Machine

/-! ### What SAVEs store (`44_valuestore.md` R122, `20_memory.md` R38) -/

/-- The slot index bits of an index (`30_encoding.md` R54). -/
def Index.bits : Index → BitVec 2
  | .first => 0#2
  | .second => 1#2
  | .idle => 2#2

@[simp] theorem Index.ofBits?_bits (k : Index) : Index.ofBits? k.bits = some k := by cases k <;> rfl

/-- SAVE operations in order are the model's SAVEs in that order. -/
theorem execAll_saves (ks : List Index) (s : State) :
    execAll (ks.map fun k => .save k.bits) s = .next (s.saveSlots ks) := by
  induction ks generalizing s with
  | nil => rfl
  | cons k ks ih =>
    rw [List.map_cons, execAll_cons, exec_save k.ofBits?_bits, andThen_next]
    exact ih (s.saveSlot k)

/-- SAVEs leave every byte outside their slots. -/
theorem State.saveSlots_read_outside (s : State) {ks : List Index} {a : NvmAddr} (ha : ¬ inSlots a ks) :
    Memory.read (s.saveSlots ks).nvm a = Memory.read s.nvm a := by
  induction ks generalizing s with
  | nil => rfl
  | cons k ks ih =>
    have hl : a ≠ lowAddr k := fun e => ha ⟨k, List.mem_cons_self, .inl e⟩
    have hh : a ≠ highAddr k := fun e => ha ⟨k, List.mem_cons_self, .inr e⟩
    have hks : ¬ inSlots a ks := fun ⟨j, hj, e⟩ => ha ⟨j, List.mem_cons_of_mem k hj, e⟩
    calc Memory.read ((s.saveSlot k).saveSlots ks).nvm a
        = Memory.read (s.saveSlot k).nvm a := ih _ hks
      _ = Memory.read s.nvm a := memWrite_read_outside s.nvm k _ hl hh

/-- SAVEs leave the slots they do not name. -/
theorem State.saveSlots_memRead_of_not_mem (s : State) {ks : List Index} {j : Index} (hj : j ∉ ks) :
    memRead (s.saveSlots ks).nvm j = memRead s.nvm j := by
  induction ks generalizing s with
  | nil => rfl
  | cons k ks ih =>
    obtain ⟨hjk, hjks⟩ := not_or.mp (mt List.mem_cons.mpr hj)
    exact (ih (s.saveSlot k) hjks).trans (memRead_memWrite_other s.nvm _ hjk)

/-- Every slot that SAVEs name ends equal to its Duration register: the last SAVE that names it stores that value. -/
theorem State.saveSlots_memRead_of_mem {s : State} (hw : Memory.wf s.nvm) {ks : List Index} {k : Index}
    (hk : k ∈ ks) : memRead (s.saveSlots ks).nvm k = s.duration k := by
  induction ks generalizing s with
  | nil => cases hk
  | cons j ks ih =>
    by_cases hks : k ∈ ks
    · exact (ih (memWrite_wf hw j _) hks).trans (s.saveSlot_duration j k)
    · obtain rfl : k = j := (List.mem_cons.mp hk).resolve_right hks
      exact ((s.saveSlot k).saveSlots_memRead_of_not_mem hks).trans (memRead_memWrite_same hw k _)

/-! ### TOGGLEEDIT (`42_edit_events.md` R90 to R94, R97) -/

theorem editMove_of_viewing {rs : RunState} (h : rs.viewing = true) (m : Mode) :
    editMove rs m = some (.editFirst, []) := by
  cases rs <;> cases h <;> rfl

theorem toggleEdit_of_editMove {s : State} {rs : RunState} {slots : List Index}
    (h : editMove s.runState s.mode = some (rs, slots)) : toggleEdit s = { s.saveSlots slots with runState := rs } := by
  rw [toggleEdit, h]

theorem toggleEdit_runState (s : State) :
    (toggleEdit s).runState = ((editMove s.runState s.mode).map Prod.fst).getD s.runState := by
  rcases toggleEdit_cases s with ⟨rs, slots, hmove, e⟩ | ⟨hmove, e⟩ <;> simp [hmove, e]

/-- The slots of the model's moves are those of the spec's table. -/
theorem savesOf_eq_confirmedSlots (s : State) : savesOf s = confirmedSlots s.runState s.mode := by
  unfold savesOf
  generalize s.runState = rs
  generalize s.mode = m
  cases rs <;> cases m <;> rfl

/-- A TOGGLEEDIT does to the store what its SAVEs do. -/
theorem toggleEdit_nvm (s : State) : (toggleEdit s).nvm = (s.saveSlots (savesOf s)).nvm := by
  unfold savesOf
  rcases toggleEdit_cases s with ⟨rs, slots, hmove, e⟩ | ⟨hmove, e⟩ <;> rw [hmove, e]
  rfl

/-- Settles O31: the frame of TOGGLEEDIT, and the edit sub-machine pair by pair. -/
theorem toggleEditTransitions : Obligations.ToggleEditTransitions := by
  intro s
  refine ⟨toggleEdit s, rfl, toggleEdit_frame s, ?_⟩
  rw [toggleEdit_runState]
  generalize s.runState = rs
  generalize s.mode = m
  cases rs <;> cases m <;> rfl

/-- Settles O32: the store after a TOGGLEEDIT is the store after the SAVEs of the confirmed slots. -/
theorem toggleEditStores : Obligations.ToggleEditStores := by
  intro s t hw h
  cases h
  rw [toggleEdit_nvm, savesOf_eq_confirmedSlots]
  exact ⟨fun _ => State.saveSlots_memRead_of_mem hw, fun _ => s.saveSlots_read_outside, fun h => by rw [h]; rfl⟩

/-- Settles O33: the SAVE operations of the confirmed slots are the SAVEs inside the TOGGLEEDIT. -/
theorem toggleEditIsItsSaves : Obligations.ToggleEditIsItsSaves := by
  intro s
  refine ⟨toggleEdit s, s.saveSlots (confirmedSlots s.runState s.mode), rfl, execAll_saves _ s, ?_,
    savesOf_eq_confirmedSlots s⟩
  rw [toggleEdit_nvm, savesOf_eq_confirmedSlots]

/-! ### ADJUST (`42_edit_events.md` R95, R96) -/

theorem adjust_of_editIndex {s : State} {k : Index} (h : s.runState.editIndex? = some k) (delta : Word) :
    adjust delta s = s.setDuration k (adjusted (s.duration k) delta) := by
  rw [adjust, h]

theorem adjust_of_not_editing {s : State} (h : s.runState.editing = false) (delta : Word) : adjust delta s = s := by
  rcases adjust_cases delta s with ⟨k, hk, -⟩ | ⟨-, e⟩
  · simp [← RunState.editIndex?_isSome, hk] at h
  · exact e

/-- Settles O35: in an Edit state the Duration of its index takes the adjusted value; elsewhere there is no index. -/
theorem adjustResult : Obligations.AdjustResult := fun s delta =>
  have of_index (k : Index) (h : s.runState.editIndex? = some k) :
      exec (.adjust delta) s = .next (s.setDuration k (adjusted (s.duration k) delta)) :=
    congrArg _ (adjust_of_editIndex h delta)
  ⟨fun h => of_index .first (by rw [h]; rfl), fun h => of_index .second (by rw [h]; rfl),
    fun h => of_index .idle (by rw [h]; rfl), fun h => congrArg _ (adjust_of_not_editing h delta)⟩

/-- The integer sum of a Duration and a turn (`42_edit_events.md` R96). -/
theorem turn_sum_range (x delta : Word) :
    -32768 ≤ (x.toNat : Int) + delta.toInt ∧ (x.toNat : Int) + delta.toInt ≤ 98302 := by
  have hx := x.isLt
  have hlo := delta.le_toInt
  have hhi := delta.toInt_lt
  omega

/-- A turn by 0 leaves a Duration that is in range. -/
theorem adjusted_zero {x : Word} (hx : 1 ≤ x.toNat) : adjusted x 0#16 = x := by
  have hlt := x.isLt
  have hclamp : clamp ((x.toNat : Int) + (0#16).toInt) 1 65535 = x.toNat := by
    rw [BitVec.toInt_zero, add_zero]
    exact clamp_of_mem (by omega) (by omega)
  have := adjusted_toNat x 0#16
  exact BitVec.eq_of_toNat_eq (by omega)

theorem adjust_duration_same {s : State} {k : Index} (h : s.runState.editIndex? = some k) (delta : Word) :
    (adjust delta s).duration k = adjusted (s.duration k) delta := by
  rw [adjust_of_editIndex h, State.setDuration_duration_same]

theorem adjust_duration_other {s : State} {k j : Index} (h : s.runState.editIndex? = some k) (hj : j ≠ k)
    (delta : Word) : (adjust delta s).duration j = s.duration j := by
  rw [adjust_of_editIndex h, s.setDuration_duration_other _ hj]

/-- After an ADJUST, an ADJUST by 0 changes nothing: the Duration is in range already. -/
theorem adjust_zero_adjust {s : State} {k : Index} (h : s.runState.editIndex? = some k) (delta : Word) :
    adjust 0#16 (adjust delta s) = adjust delta s := by
  have hk : (adjust delta s).runState.editIndex? = some k := by rw [adjust_runState, h]
  have hd : 1 ≤ ((adjust delta s).duration k).toNat := by
    rw [adjust_duration_same h]
    exact (adjusted_range _ delta).1
  rw [adjust_of_editIndex hk, adjusted_zero hd, State.setDuration_self]

/-- Settles O36: the adjusted Duration is the clamped integer sum, below, above and inside the range. -/
theorem adjustArithmetic : Obligations.AdjustArithmetic := by
  intro s delta k hk
  have hsum := adjusted_toNat (s.duration k) delta
  rw [← adjust_duration_same hk] at hsum
  obtain ⟨hlo, hhi⟩ := turn_sum_range (s.duration k) delta
  refine ⟨adjust delta s, exec_adjust delta s, hlo, hhi, fun h => ?below, fun h => ?above, fun h1 h2 => ?inside,
    fun j hj => adjust_duration_other hk hj delta, ?again⟩
  case below =>
    rw [clamp_of_lt h] at hsum
    omega
  case above =>
    rw [clamp_of_gt (by decide) h] at hsum
    omega
  case inside => rw [hsum, clamp_of_mem h1 h2]
  case again => rw [exec_adjust, adjust_zero_adjust hk]

/-! ### Edit sessions (`42_edit_events.md` R98)

A session enters EditFirst, then makes one turn per Edit state: an ADJUST, and the TOGGLEEDIT that leaves the state. The
last TOGGLEEDIT stores the slots of the Mode. -/

/-- The state in which a session starts to edit (`42_edit_events.md` R90). -/
def State.enterEdit (s : State) : State := { s with runState := .editFirst }

/-- The state an Edit state's turn leads to: Duration `k` adjusted, the slots of the move saved. -/
def State.turned (s : State) (k : Index) (delta : Word) (rs : RunState) (slots : List Index) : State :=
  { (s.setDuration k (adjusted (s.duration k) delta)).saveSlots slots with runState := rs }

@[simp] theorem State.enterEdit_runState (s : State) : s.enterEdit.runState = .editFirst := rfl

@[simp] theorem State.enterEdit_mode (s : State) : s.enterEdit.mode = s.mode := rfl

@[simp] theorem State.turned_runState (s : State) (k : Index) (delta : Word) (rs : RunState) (slots : List Index) :
    (s.turned k delta rs slots).runState = rs := rfl

@[simp] theorem State.turned_mode (s : State) (k : Index) (delta : Word) (rs : RunState) (slots : List Index) :
    (s.turned k delta rs slots).mode = s.mode := by simp [State.turned]

theorem execAll_enterEdit {s : State} (h : s.runState.viewing = true) (ops : List Instr) :
    execAll (.toggleEdit :: ops) s = execAll ops s.enterEdit := by
  rw [execAll_cons, exec_toggleEdit, andThen_next, toggleEdit_of_editMove (editMove_of_viewing h s.mode)]
  rfl

theorem execAll_turn {s : State} {k : Index} {rs : RunState} {slots : List Index}
    (hk : s.runState.editIndex? = some k) (hmove : editMove s.runState s.mode = some (rs, slots)) (delta : Word)
    (ops : List Instr) :
    execAll (.adjust delta :: .toggleEdit :: ops) s = execAll ops (s.turned k delta rs slots) := by
  have hmove' : editMove (adjust delta s).runState (adjust delta s).mode = some (rs, slots) := by
    rw [adjust_runState, adjust_mode, hmove]
  simp only [execAll_cons, exec_adjust, exec_toggleEdit, andThen_next]
  rw [toggleEdit_of_editMove hmove', adjust_of_editIndex hk]
  rfl

/-- A turn changes its Duration, RunState and the store. -/
theorem State.turned_frame (s : State) (k : Index) (delta : Word) (rs : RunState) (slots : List Index) :
    s.turned k delta rs slots = { s.setDuration k (adjusted (s.duration k) delta) with
      runState := rs, nvm := (s.turned k delta rs slots).nvm } := by
  unfold State.turned
  rw [State.saveSlots_frame]

/-- A turn keeps the store's canonical form. -/
theorem State.turned_wf {s : State} (hw : Memory.wf s.nvm) (k : Index) (delta : Word) (rs : RunState)
    (slots : List Index) : Memory.wf (s.turned k delta rs slots).nvm :=
  State.saveSlots_wf (by rwa [State.setDuration_nvm]) slots

/-- A turn leaves the slots its move does not save. -/
theorem State.turned_memRead_of_not_mem (s : State) (k : Index) (delta : Word) (rs : RunState) {slots : List Index}
    {j : Index} (hj : j ∉ slots) : memRead (s.turned k delta rs slots).nvm j = memRead s.nvm j :=
  (State.saveSlots_memRead_of_not_mem _ hj).trans (by rw [State.setDuration_nvm])

/-- Every slot a turn's move saves ends equal to its Duration register. -/
theorem State.turned_memRead_of_mem {s : State} (hw : Memory.wf s.nvm) (k : Index) (delta : Word) (rs : RunState)
    {slots : List Index} {j : Index} (hj : j ∈ slots) :
    memRead (s.turned k delta rs slots).nvm j = (s.turned k delta rs slots).duration j := by
  have hw' : Memory.wf (s.setDuration k (adjusted (s.duration k) delta)).nvm := by rwa [State.setDuration_nvm]
  rw [s.turned_frame]
  exact (State.saveSlots_memRead_of_mem hw' hj).trans (by cases j <;> rfl)

/-- A session in Once: the one turn stores `pulse1`. -/
theorem execAll_session_once {s : State} (hr : s.runState = .viewOnce) (hm : s.mode = .once) (d1 : Word) :
    execAll [.toggleEdit, .adjust d1, .toggleEdit] s = .next (s.enterEdit.turned .first d1 .viewOnce [.first]) :=
  calc execAll [.toggleEdit, .adjust d1, .toggleEdit] s
    _ = execAll [.adjust d1, .toggleEdit] s.enterEdit := execAll_enterEdit (by rw [hr]; rfl) _
    _ = execAll [] (s.enterEdit.turned .first d1 .viewOnce [.first]) := execAll_turn rfl (by simp [editMove, hm]) _ _

/-- A session in Continuous: EditFirst, then EditIdle, whose turn stores `pulse1` and `idle`. -/
theorem execAll_session_continuous {s : State} (hr : s.runState = .viewContinuous) (hm : s.mode = .continuous)
    (d1 d2 : Word) :
    execAll [.toggleEdit, .adjust d1, .toggleEdit, .adjust d2, .toggleEdit] s =
      .next ((s.enterEdit.turned .first d1 .editIdle []).turned .idle d2 .viewContinuous [.first, .idle]) :=
  calc execAll [.toggleEdit, .adjust d1, .toggleEdit, .adjust d2, .toggleEdit] s
    _ = execAll [.adjust d1, .toggleEdit, .adjust d2, .toggleEdit] s.enterEdit :=
      execAll_enterEdit (by rw [hr]; rfl) _
    _ = execAll [.adjust d2, .toggleEdit] (s.enterEdit.turned .first d1 .editIdle []) :=
      execAll_turn rfl (by simp [editMove, hm]) _ _
    _ = execAll [] ((s.enterEdit.turned .first d1 .editIdle []).turned .idle d2 .viewContinuous [.first, .idle]) :=
      execAll_turn rfl (by simp [editMove, hm]) _ _

/-- A session in Twice: EditFirst, EditIdle, then EditSecond, whose turn stores all three Durations. -/
theorem execAll_session_twice {s : State} (hr : s.runState = .viewTwice) (hm : s.mode = .twice) (d1 d2 d3 : Word) :
    execAll [.toggleEdit, .adjust d1, .toggleEdit, .adjust d2, .toggleEdit, .adjust d3, .toggleEdit] s =
      .next (((s.enterEdit.turned .first d1 .editIdle []).turned .idle d2 .editSecond []).turned .second d3 .viewTwice
        [.first, .second, .idle]) :=
  calc execAll [.toggleEdit, .adjust d1, .toggleEdit, .adjust d2, .toggleEdit, .adjust d3, .toggleEdit] s
    _ = execAll [.adjust d1, .toggleEdit, .adjust d2, .toggleEdit, .adjust d3, .toggleEdit] s.enterEdit :=
      execAll_enterEdit (by rw [hr]; rfl) _
    _ = execAll [.adjust d2, .toggleEdit, .adjust d3, .toggleEdit] (s.enterEdit.turned .first d1 .editIdle []) :=
      execAll_turn rfl (by simp [editMove, hm]) _ _
    _ = execAll [.adjust d3, .toggleEdit]
        ((s.enterEdit.turned .first d1 .editIdle []).turned .idle d2 .editSecond []) :=
      execAll_turn rfl (by simp [editMove, hm]) _ _
    _ = execAll [] (((s.enterEdit.turned .first d1 .editIdle []).turned .idle d2 .editSecond []).turned .second d3
        .viewTwice [.first, .second, .idle]) :=
      execAll_turn rfl (by simp [editMove, hm]) _ _

/-- Settles O34: each session is its turns, and the last turn saves the slots of the Mode. -/
theorem editSessionStoresItsTurns : Obligations.EditSessionStoresItsTurns := by
  intro s d1 d2 d3 hw
  have henter : Memory.wf s.enterEdit.nvm := hw
  have hfirst := State.turned_wf henter .first d1 .editIdle []
  have hidle := State.turned_wf hfirst .idle d2 .editSecond []
  refine ⟨fun hr hm => ?once, fun hr hm => ?continuous, fun hr hm => ?twice⟩
  case once =>
    exact ⟨_, execAll_session_once hr hm d1, by rw [State.turned_frame, ← hr]; rfl,
      State.turned_memRead_of_mem henter _ _ _ (by decide), State.turned_memRead_of_not_mem _ _ _ _ (by decide),
      State.turned_memRead_of_not_mem _ _ _ _ (by decide)⟩
  case continuous =>
    exact ⟨_, execAll_session_continuous hr hm d1 d2, by rw [State.turned_frame, ← hr]; rfl,
      State.turned_memRead_of_mem hfirst _ _ _ (by decide), State.turned_memRead_of_not_mem _ _ _ _ (by decide),
      State.turned_memRead_of_mem hfirst _ _ _ (by decide)⟩
  case twice =>
    exact ⟨_, execAll_session_twice hr hm d1 d2 d3, by rw [State.turned_frame, ← hr]; rfl,
      fun k => State.turned_memRead_of_mem hidle _ _ _ (by cases k <;> decide)⟩

end Sys2Proof.Machine
end

section
/-! SUPPORT. The multiplexer (`43_input_mux.md`): what each channel of a poll sends and does (R103 to R109), the detector bits
(R106 to R108), and a poll as the core events it sends (R110, R119). -/

namespace Sys2Proof.Machine

/-! ### The click resolution (`43_input_mux.md` R103) -/

theorem clickEvent_of_viewing {rs : RunState} (h : rs.viewing = true) (m : Mode) : clickEvent rs m = some .start :=
  if_pos h

theorem clickEvent_of_continuous {rs : RunState} {m : Mode} (hp : rs.pulsing = true) (hm : m = .continuous) :
    clickEvent rs m = some .stop := by
  simp [clickEvent, RunState.not_viewing_of_pulsing hp, hp, hm]

theorem clickEvent_of_pulsing {rs : RunState} {m : Mode} (hp : rs.pulsing = true) (hm : m ≠ .continuous) :
    clickEvent rs m = none := by
  simp [clickEvent, RunState.not_viewing_of_pulsing hp, hm]

theorem clickEvent_of_editing {rs : RunState} (h : rs.editing = true) (m : Mode) : clickEvent rs m = none := by
  cases rs <;> cases h <;> rfl

/-- A click sends an event that its target accepts. -/
theorem clickEvent_accepted {s : State} {e : CoreEvent} (h : clickEvent s.runState s.mode = some e) :
    accepts e s = true ∧ (e = .start ∨ e = .stop) := by
  unfold clickEvent at h
  split_ifs at h with hv hc
  · cases h; exact ⟨hv, .inl rfl⟩
  · cases h; exact ⟨by simpa [accepts] using hc, .inr rfl⟩

/-- A click of these RunState and Mode, sent to a state, is the START, the STOP or no operation that they resolve to. -/
theorem exec_clickEvent (rs : RunState) (m : Mode) (u : State) :
    if rs.viewing = true then exec .start u = .next (send (clickEvent rs m) u)
    else if rs.pulsing = true ∧ m = .continuous then exec .stop u = .next (send (clickEvent rs m) u)
    else send (clickEvent rs m) u = u := by
  unfold clickEvent
  split_ifs <;> rfl

/-! ### The rotation (`43_input_mux.md` R109) -/

theorem rotationStep_of_turn {delta : Word} {s : State} (h : s.runState.editing = true ∧ delta.toInt ≠ 0) :
    rotationStep delta s = adjust delta s := by
  rw [rotationStep, rotationEvent, if_pos h]; rfl

theorem rotationStep_of_no_turn {delta : Word} {s : State} (h : ¬ (s.runState.editing = true ∧ delta.toInt ≠ 0)) :
    rotationStep delta s = s := by
  rw [rotationStep, rotationEvent, if_neg h]; rfl

@[simp] theorem rotationStep_zero (s : State) : rotationStep 0#16 s = s := rotationStep_of_no_turn (by simp)

@[simp] theorem rotationStep_lpHandled (delta : Word) (s : State) : (rotationStep delta s).lpHandled = s.lpHandled := by
  obtain ⟨-, h, -⟩ := send_frame (rotationEvent delta s) s; exact h

/-! ### The button (`43_input_mux.md` R104 to R107) -/

@[simp] theorem buttonStep_opened (s : State) : buttonStep .opened s = s := rfl
@[simp] theorem buttonStep_closed (s : State) : buttonStep .closed s = s := rfl
@[simp] theorem buttonStep_pressed (s : State) : buttonStep .pressed s = s := rfl
@[simp] theorem buttonStep_released (s : State) : buttonStep .released s = { s with lpHandled := false } := rfl
@[simp] theorem buttonStep_doubleClicked (s : State) : buttonStep .doubleClicked s = toggleEdit s := rfl

theorem buttonStep_clicked (s : State) : buttonStep .clicked s = send (clickEvent s.runState s.mode) s := rfl

theorem buttonStep_held_first {s : State} (h : s.lpHandled = false) :
    buttonStep .held s = cycleMode { s with lpHandled := true } := by
  simp [buttonStep, buttonEvent, longPress, lpAfter, h, send, deliver]

theorem buttonStep_held_again {s : State} (h : s.lpHandled = true) : buttonStep .held s = s := by
  cases s; cases h; rfl

/-- The button sends CYCLEMODE at the first Held of a hold, TOGGLEEDIT at a DoubleClicked, and what a Clicked resolves to. -/
theorem buttonEvent_cases {btn : Button} {s : State} {e : CoreEvent} (h : buttonEvent btn s = some e) :
    (btn = .held ∧ s.lpHandled = false ∧ e = .cycleMode) ∨
    (btn = .clicked ∧ clickEvent s.runState s.mode = some e) ∨
    (btn = .doubleClicked ∧ e = .toggleEdit) := by
  cases btn with
  | held =>
    obtain ⟨hlp, rfl⟩ : s.lpHandled = false ∧ .cycleMode = e := by simpa [buttonEvent, longPress] using h
    exact .inl ⟨rfl, hlp, rfl⟩
  | clicked => exact .inr (.inl ⟨rfl, h⟩)
  | doubleClicked => cases h; exact .inr (.inr ⟨rfl, rfl⟩)
  | opened | closed | pressed | released => cases h

/-! ### The auxiliary switch (`43_input_mux.md` R108) -/

/-- A switch found pressed, and not pressed at the previous poll, clicks. In an Edit state a click resolves to none anyway. -/
theorem auxStep_of_press {auxN : Bool} {s : State} (h : auxN = false ∧ s.auxPrev = false) :
    auxStep auxN s = send (clickEvent s.runState s.mode) { s with auxPrev := true } := by
  obtain ⟨rfl, hprev⟩ := h
  have hevent : auxEvent false s = clickEvent s.runState s.mode := by
    cases hr : s.runState.editing with
    | false => simp [auxEvent, auxFires, auxPressed, hprev, hr]
    | true => simp [auxEvent, hr, clickEvent_of_editing hr]
  rw [auxStep, hevent]; rfl

theorem auxStep_of_no_press {auxN : Bool} {s : State} (h : ¬ (auxN = false ∧ s.auxPrev = false)) :
    auxStep auxN s = { s with auxPrev := !auxN } := by
  have hfires : auxFires auxN s.auxPrev = false := by simpa [auxFires, auxPressed] using h
  simp [auxStep, auxEvent, auxPressed, hfires, send]

/-! ### The polls one by one (`43_input_mux.md` R103 to R117) -/

/-- Settles O39: the steps of a poll are its three channels, each by its cases. -/
theorem pollAppliesItsChannels : Obligations.PollAppliesItsChannels := by
  intro btn auxN delta s
  refine ⟨rotationStep delta s, buttonStep btn (rotationStep delta s), poll btn auxN delta s, ?rotation, ?button, ?aux,
    exec_pollInstr btn auxN delta s⟩
  case rotation =>
    split_ifs with h
    · rw [rotationStep_of_turn h, exec_adjust]
    · exact rotationStep_of_no_turn h
  case button =>
    generalize rotationStep delta s = s1
    cases btn with
    | opened | closed | pressed => rfl
    | released => exact buttonStep_released s1
    | doubleClicked => exact exec_toggleEdit s1
    | held =>
      dsimp only
      split_ifs with h
      · rw [buttonStep_held_first h, exec_cycleMode]
      · exact buttonStep_held_again (Bool.eq_true_of_not_eq_false h)
    | clicked => exact exec_clickEvent s1.runState s1.mode s1
  case aux =>
    rw [poll]
    generalize buttonStep btn (rotationStep delta s) = s2
    by_cases h : auxN = false ∧ s2.auxPrev = false
    · rw [if_pos h, auxStep_of_press h]
      exact exec_clickEvent s2.runState s2.mode { s2 with auxPrev := true }
    · rw [if_neg h, auxStep_of_no_press h]

/-- Settles O38: START and STOP take effect where a click sends them; a click that sends nothing leaves the three steps of the
poll with `aux_prev` alone to write. -/
theorem clickResolution : Obligations.ClickResolution := by
  refine fun s => ⟨fun hv => ⟨clickEvent_of_viewing hv _, s.started, ?_, rfl⟩,
    fun hp hm => ⟨clickEvent_of_continuous hp hm, { s with runState := .viewContinuous }, ?_, rfl⟩,
    clickEvent_of_pulsing, fun he => clickEvent_of_editing he _, fun hnone => ?_⟩
  · rw [exec_start, startSequence_of_viewing hv]
  · rw [exec_stop, stopSequence_of_continuous hp hm]
  · have hbutton : buttonStep .clicked s = s := by rw [buttonStep_clicked, hnone]; rfl
    rw [exec_pollClicked, poll, rotationStep_zero, hbutton, auxStep_of_no_press (by simp)]
    rfl

/-- Settles O40: step 2 of the three polls does nothing; with the switch released step 3 sends nothing. -/
theorem quietPolls : Obligations.QuietPolls := by
  intro s auxN delta
  refine ⟨by simp [poll], by simp [poll], ?_⟩
  rw [exec_pollOpen, poll, rotationStep_zero, buttonStep_opened, auxStep_of_no_press (by simp)]
  rfl

/-- An Open poll outside the Edit states that finds the switch still pressed changes nothing. -/
theorem poll_opened_of_aux_held {s : State} (haux : s.auxPrev = true) (hr : s.runState.editing = false) (delta : Word) :
    poll .opened false delta s = s := by
  rw [poll, rotationStep_of_no_turn (by simp [hr]), buttonStep_opened, auxStep_of_no_press (by simp [haux]),
    Bool.not_false, ← haux]

/-- Settles O44, by induction on the number of polls. -/
theorem auxiliaryFiresOncePerPress : Obligations.AuxiliaryFiresOncePerPress := by
  intro n s delta haux hr
  induction n with
  | zero => rfl
  | succ n ih =>
    rw [List.replicate_succ, execAll_cons, exec_pollOpen, poll_opened_of_aux_held haux hr, andThen_next, ih]

/-! ### What a poll sends (`43_input_mux.md` R119) -/

theorem rotationEvent_accepted {delta : Word} {s : State} {e : CoreEvent} (h : rotationEvent delta s = some e) :
    e = .adjustValue delta ∧ accepts e s = true := by
  unfold rotationEvent at h
  split_ifs at h with hturn
  cases h
  exact ⟨rfl, hturn.1⟩

/-- On the reachable pairs TOGGLEEDIT is ignored in the Pulse states alone (`42_edit_events.md` R94). -/
theorem accepts_toggleEdit_of_legalPair {s : State} (h : legalPair s.runState s.mode = true) :
    accepts .toggleEdit s = !s.runState.pulsing := by
  unfold accepts
  revert h
  generalize s.runState = rs
  generalize s.mode = m
  cases rs <;> cases m <;> decide

/-- An event of the button that its target ignores is CYCLEMODE or TOGGLEEDIT in a Pulse state. -/
theorem buttonEvent_accepted {btn : Button} {s : State} {e : CoreEvent} (hpair : legalPair s.runState s.mode = true)
    (h : buttonEvent btn s = some e) : accepts e s = true ∨ s.runState.pulsing = true ∧
      (btn = .held ∧ e = .cycleMode ∨ btn = .doubleClicked ∧ e = .toggleEdit) := by
  obtain ⟨rfl, -, rfl⟩ | ⟨rfl, hclick⟩ | ⟨rfl, rfl⟩ := buttonEvent_cases h
  · cases hp : s.runState.pulsing <;> simp [accepts, hp]
  · exact .inl (clickEvent_accepted hclick).1
  · rw [accepts_toggleEdit_of_legalPair hpair]
    cases s.runState.pulsing <;> simp

theorem auxEvent_accepted {auxN : Bool} {s : State} {e : CoreEvent} (h : auxEvent auxN s = some e) :
    accepts e s = true ∧ (e = .start ∨ e = .stop) := by
  unfold auxEvent at h
  split_ifs at h
  exact clickEvent_accepted h

theorem pollSent_length_le (btn : Button) (auxN : Bool) (delta : Word) (s : State) :
    (pollSent btn auxN delta s).length ≤ 3 := by
  have hone (e : Option CoreEvent) : e.toList.length ≤ 1 := by cases e <;> simp
  have hrot := hone (rotationEvent delta s)
  have hbutton := hone (buttonEvent btn (rotationStep delta s))
  have haux := hone (auxEvent auxN (buttonStep btn (rotationStep delta s)))
  rw [pollSent, List.length_append, List.length_append]
  omega

/-- Settles O41: what each channel may send, and that it is at most one event. -/
theorem multiplexerSendsWhatIsAccepted : Obligations.MultiplexerSendsWhatIsAccepted :=
  fun btn auxN delta s hpair => ⟨fun _ => rotationEvent_accepted, fun _ => buttonEvent_accepted hpair,
    fun _ => auxEvent_accepted, pollSent_length_le btn auxN delta s⟩

/-! ### A poll is the events it sends (`43_input_mux.md` R110) -/

theorem State.saveSlots_withDetectors (lp aux : Bool) (s : State) (ks : List Index) :
    (s.withDetectors lp aux).saveSlots ks = (s.saveSlots ks).withDetectors lp aux := by
  induction ks generalizing s with
  | nil => rfl
  | cons k ks ih =>
    have hslot : (s.withDetectors lp aux).saveSlot k = (s.saveSlot k).withDetectors lp aux := by cases k <;> rfl
    exact (congrArg (State.saveSlots · ks) hslot).trans (ih (s.saveSlot k))

theorem toggleEdit_withDetectors (lp aux : Bool) (s : State) :
    toggleEdit (s.withDetectors lp aux) = (toggleEdit s).withDetectors lp aux := by
  unfold toggleEdit
  rw [State.withDetectors_runState, State.withDetectors_mode]
  cases editMove s.runState s.mode with
  | none => rfl
  | some p => exact congrArg (fun u : State => { u with runState := p.1 }) (s.saveSlots_withDetectors lp aux p.2)

theorem adjust_withDetectors (delta : Word) (lp aux : Bool) (s : State) :
    adjust delta (s.withDetectors lp aux) = (adjust delta s).withDetectors lp aux := by
  unfold adjust
  rw [State.withDetectors_runState]
  cases s.runState.editIndex? with
  | none => rfl
  | some k => cases k <;> rfl

/-- No core event reads or writes a detector bit. -/
theorem deliver_withDetectors (e : CoreEvent) (lp aux : Bool) (s : State) :
    deliver e (s.withDetectors lp aux) = (deliver e s).withDetectors lp aux := by
  cases e with
  | start => simp only [deliver, startSequence, apply_ite (State.withDetectors lp aux)]; rfl
  | stop => simp only [deliver, stopSequence, apply_ite (State.withDetectors lp aux)]; rfl
  | cycleMode => simp only [deliver, cycleMode, apply_ite (State.withDetectors lp aux)]; rfl
  | toggleEdit => exact toggleEdit_withDetectors lp aux s
  | adjustValue delta => exact adjust_withDetectors delta lp aux s

theorem send_withDetectors (e : Option CoreEvent) (lp aux : Bool) (s : State) :
    send e (s.withDetectors lp aux) = (send e s).withDetectors lp aux := by
  cases e with
  | none => rfl
  | some e => exact deliver_withDetectors e lp aux s

/-- The core operation of what a channel sends, if it sends, followed by others. -/
theorem execAll_sent_append (e : Option CoreEvent) (es : List CoreEvent) (s : State) :
    execAll ((e.toList ++ es).map CoreEvent.instr) s = execAll (es.map CoreEvent.instr) (send e s) := by
  cases e with
  | none => rfl
  | some e => exact congrArg (andThen · (execAll (es.map CoreEvent.instr))) (exec_coreInstr e s)

/-- The state that the events a poll sends lead to, with the detector bits as they were. -/
def pollEvents (btn : Button) (auxN : Bool) (delta : Word) (s : State) : State :=
  send (auxEvent auxN (buttonStep btn (rotationStep delta s)))
    (send (buttonEvent btn (rotationStep delta s)) (rotationStep delta s))

theorem execAll_pollSent (btn : Button) (auxN : Bool) (delta : Word) (s : State) :
    execAll ((pollSent btn auxN delta s).map CoreEvent.instr) s = .next (pollEvents btn auxN delta s) := by
  rw [pollSent, List.append_assoc, execAll_sent_append, execAll_sent_append, ← List.append_nil (Option.toList _),
    execAll_sent_append]
  rfl

theorem buttonStep_eq_withDetectors (btn : Button) (s : State) :
    buttonStep btn s = (send (buttonEvent btn s) s).withDetectors (lpAfter btn s.lpHandled) s.auxPrev :=
  send_withDetectors (buttonEvent btn s) (lpAfter btn s.lpHandled) s.auxPrev s

theorem auxStep_eq_withDetectors (auxN : Bool) (s : State) :
    auxStep auxN s = (send (auxEvent auxN s) s).withDetectors s.lpHandled (auxPressed auxN) :=
  send_withDetectors (auxEvent auxN s) s.lpHandled (auxPressed auxN) s

theorem poll_eq_withDetectors (btn : Button) (auxN : Bool) (delta : Word) (s : State) :
    poll btn auxN delta s =
      (pollEvents btn auxN delta s).withDetectors (lpAfter btn s.lpHandled) (auxPressed auxN) := by
  rw [poll, auxStep_eq_withDetectors, pollEvents]
  generalize auxEvent auxN _ = e
  rw [buttonStep_eq_withDetectors, send_withDetectors, rotationStep_lpHandled]
  rfl

/-- Settles O42: the detector bits that the button and the auxiliary switch write bear on no event delivered after them. -/
theorem pollIsTheEventsItSends : Obligations.PollIsTheEventsItSends := by
  intro btn auxN delta s
  refine ⟨poll btn auxN delta s, pollEvents btn auxN delta s, exec_pollInstr btn auxN delta s,
    execAll_pollSent btn auxN delta s, ?_⟩
  rw [poll_eq_withDetectors]
  cases btn <;> rfl

/-! ### One long press a hold (`43_input_mux.md` R106, R107) -/

/-- Mode is written by CYCLEMODE alone. -/
theorem send_mode {e : Option CoreEvent} (h : e ≠ some .cycleMode) (s : State) : (send e s).mode = s.mode := by
  cases e with
  | none => rfl
  | some e =>
    cases e with
    | start => exact startSequence_mode s
    | stop => exact stopSequence_mode s
    | cycleMode => exact absurd rfl h
    | toggleEdit => exact toggleEdit_mode s
    | adjustValue delta => exact adjust_mode delta s

theorem buttonEvent_ne_cycleMode {s : State} (h : s.lpHandled = true) (btn : Button) :
    buttonEvent btn s ≠ some .cycleMode := fun he => by
  obtain ⟨-, hlp, -⟩ | ⟨-, hclick⟩ | ⟨-, ht⟩ := buttonEvent_cases he
  · simp [h] at hlp
  · simpa using (clickEvent_accepted hclick).2
  · cases ht

/-- With the long press reported, a poll leaves Mode. -/
theorem poll_mode_of_lpHandled {s : State} (h : s.lpHandled = true) (btn : Button) (auxN : Bool) (delta : Word) :
    (poll btn auxN delta s).mode = s.mode := by
  have hlp : (rotationStep delta s).lpHandled = true := (rotationStep_lpHandled delta s).trans h
  calc (poll btn auxN delta s).mode
    _ = (buttonStep btn (rotationStep delta s)).mode := (auxStep_sameSettings _ auxN).1
    _ = (rotationStep delta s).mode := send_mode (buttonEvent_ne_cycleMode hlp btn) _
    _ = s.mode := rotationStep_mode delta s

theorem poll_lpHandled_of_ne_released {s : State} (h : s.lpHandled = true) {btn : Button} (hb : btn ≠ .released)
    (auxN : Bool) (delta : Word) : (poll btn auxN delta s).lpHandled = true := by
  obtain ⟨-, hlp, -⟩ := poll_frame btn auxN delta s
  rw [hlp, h]
  cases btn with
  | released => exact absurd rfl hb
  | _ => rfl

/-- Settles O43: a TICK and each poll but POLL.RELEASED keep Mode and the set `lp_handled`, so a run of them does. -/
theorem longPressFiresOncePerHold : Obligations.LongPressFiresOncePerHold := by
  intro ops s t hlp hops ht
  refine execAll_keeps (P := fun u => u.mode = s.mode ∧ u.lpHandled = true) ?_ ⟨rfl, hlp⟩ ht
  rintro i hi u v ⟨hmode, hu⟩ hv
  obtain rfl | ⟨hpoll, hreleased⟩ := hops i hi
  · cases hv
    exact ⟨(tick_mode u).trans hmode, (tick_lpHandled u).trans hu⟩
  · obtain ⟨btn, auxN, delta, rfl⟩ := (isPoll_iff i).mp hpoll
    have hb : btn ≠ .released := fun hb => hreleased auxN delta (by rw [hb]; rfl)
    rw [exec_pollInstr] at hv
    cases hv
    exact ⟨(poll_mode_of_lpHandled hu btn auxN delta).trans hmode, poll_lpHandled_of_ne_released hu hb auxN delta⟩

/-! ### What a poll stores (`43_input_mux.md` R110, R117) -/

/-- The store is written by TOGGLEEDIT alone. -/
theorem send_nvm {e : Option CoreEvent} (h : e ≠ some .toggleEdit) (s : State) : (send e s).nvm = s.nvm := by
  cases e with
  | none => rfl
  | some e =>
    cases e with
    | start => exact startSequence_nvm s
    | stop => exact stopSequence_nvm s
    | cycleMode => exact cycleMode_nvm s
    | toggleEdit => exact absurd rfl h
    | adjustValue delta => exact adjust_nvm delta s

theorem buttonEvent_ne_toggleEdit {btn : Button} (h : btn ≠ .doubleClicked) (s : State) :
    buttonEvent btn s ≠ some .toggleEdit := fun he => by
  obtain ⟨-, -, hc⟩ | ⟨-, hclick⟩ | ⟨hb, -⟩ := buttonEvent_cases he
  · cases hc
  · simpa using (clickEvent_accepted hclick).2
  · exact h hb

theorem poll_nvm_of_ne_doubleClicked {btn : Button} (h : btn ≠ .doubleClicked) (auxN : Bool) (delta : Word) (s : State) :
    (poll btn auxN delta s).nvm = s.nvm :=
  calc (poll btn auxN delta s).nvm
    _ = (buttonStep btn (rotationStep delta s)).nvm := auxStep_nvm auxN _
    _ = (rotationStep delta s).nvm := send_nvm (buttonEvent_ne_toggleEdit h _) _
    _ = s.nvm := rotationStep_nvm delta s

theorem poll_doubleClicked_nvm (auxN : Bool) (delta : Word) (s : State) :
    (poll .doubleClicked auxN delta s).nvm = (toggleEdit (rotationStep delta s)).nvm := by
  rw [poll, auxStep_nvm, buttonStep_doubleClicked]

/-- Settles O46: a DoubleClicked stores what the TOGGLEEDIT after the rotation stores; no other poll writes the store. -/
theorem pollStores : Obligations.PollStores := by
  intro btn auxN delta s t hw ht
  rw [exec_pollInstr] at ht
  cases ht
  by_cases hb : btn = .doubleClicked
  · subst hb
    obtain ⟨hslots, hother, -⟩ := toggleEditStores (rotationStep delta s) _ (by rwa [rotationStep_nvm]) (exec_toggleEdit _)
    simp only [rotationStep_runState, rotationStep_mode, rotationStep_nvm] at hslots hother
    rw [poll_doubleClicked_nvm]
    exact ⟨absurd rfl, fun k hk _ => hslots k hk, hother⟩
  · have hnvm := poll_nvm_of_ne_doubleClicked hb auxN delta s
    exact ⟨fun _ => hnvm, fun _ _ h => absurd h hb, fun a _ => by rw [hnvm]⟩

end Sys2Proof.Machine
end

section
/-! SUPPORT. The value store micro-operations LOAD and SAVE (`44_valuestore.md` R120 to R122): what a LOAD answers in each of its
two branches, what it leaves in its own slot and outside it, and what a SAVE leaves. -/

namespace Sys2Proof.Machine

/-! ### The two branches of LOAD (`44_valuestore.md` R120) -/

theorem State.loadSlot_of_eq_zero {s : State} {k : Index} (h : memRead s.nvm k = 0#16) :
    s.loadSlot k = { s.setDuration k k.default with nvm := memWrite s.nvm k k.default } := if_pos h

/-- What LOAD answers, as one equation: a stored 0 becomes the default, written back; every other value is taken. -/
theorem exec_load_eq {b : BitVec 2} {k : Index} (hk : Index.ofBits? b = some k) (s : State) :
    exec (.load b) s = .next (if memRead s.nvm k = 0#16 then
      { s.setDuration k k.default with nvm := memWrite s.nvm k k.default } else s.setDuration k (memRead s.nvm k)) :=
  exec_load hk s

/-- Settles O48: the two branches of LOAD at each of the three slots, with the slot's register and default put in. -/
theorem loadResult : Obligations.LoadResult := fun s =>
  ⟨exec_load_eq (k := .first) rfl s, exec_load_eq (k := .second) rfl s, exec_load_eq (k := .idle) rfl s⟩

/-! ### The store after LOAD (`44_valuestore.md` R121) -/

/-- After LOAD k, slot k holds what register k does: the value the register was read from, or the default written back. -/
theorem State.loadSlot_memRead_same {s : State} (hw : Memory.wf s.nvm) (k : Index) :
    memRead (s.loadSlot k).nvm k = (s.loadSlot k).duration k := by
  by_cases h : memRead s.nvm k = 0#16
  · rw [s.loadSlot_duration_same, if_pos h, State.loadSlot_of_eq_zero h]
    exact memRead_memWrite_same hw k _
  · rw [s.loadSlot_duration_same, if_neg h, State.loadSlot_nvm_of_ne_zero h]

/-- LOAD k leaves every byte outside slot k. -/
theorem State.loadSlot_read_outside (s : State) (k : Index) {a : NvmAddr} (hl : a ≠ lowAddr k) (hh : a ≠ highAddr k) :
    Memory.read (s.loadSlot k).nvm a = Memory.read s.nvm a := by
  by_cases h : memRead s.nvm k = 0#16
  · rw [State.loadSlot_of_eq_zero h]
    exact memWrite_read_outside s.nvm k k.default hl hh
  · rw [State.loadSlot_nvm_of_ne_zero h]

/-- A word other than 0 is a valid Duration: 16 bits hold nothing above 65535 (`10_state.md` R18). -/
theorem word_range_of_ne_zero {v : Word} (h : v ≠ 0#16) : 1 ≤ v.toNat ∧ v.toNat ≤ 65535 := by bv_omega

/-- Settles O49: the register and the store after LOAD in its two branches; a register LOAD has written is never 0. -/
theorem loadRejectsOnlyZero : Obligations.LoadRejectsOnlyZero := by
  intro s t b k hw hk ht
  rw [exec_load hk] at ht
  cases ht
  obtain ⟨hmin, hmax⟩ := word_range_of_ne_zero (s.loadSlot_duration_ne_zero k)
  refine ⟨fun h => ⟨?_, State.loadSlot_nvm_of_ne_zero h⟩, fun h => ?_, hmin, hmax, State.loadSlot_memRead_same hw k,
    fun j hj => ⟨s.loadSlot_duration_other hj, s.loadSlot_memRead_other hj⟩, fun a => s.loadSlot_read_outside k⟩
  · rw [s.loadSlot_duration_same, if_neg h]
  · rw [s.loadSlot_duration_same, if_pos h]

/-! ### SAVE (`44_valuestore.md` R122) -/

/-- Settles O50: SAVE k is the slot write of register k and changes the store alone. -/
theorem saveResult : Obligations.SaveResult := fun s _ k hw hk =>
  ⟨s.saveSlot k, exec_save hk s, rfl, memWrite_read_low hw k (s.duration k), memWrite_read_high hw k (s.duration k),
    fun _ => memWrite_read_outside s.nvm k (s.duration k)⟩

end Sys2Proof.Machine
end

section
/-! SUPPORT. Errors, contexts and observation (`60_exceptions.md`): every well-formed operation and every step answers a next state
(R130), what is ignored (R133), who writes what (R145), what can be observed (R150, R151) and what survives a RESET (R152). -/

namespace Sys2Proof.Machine

/-! ### Every operation answers (`60_exceptions.md` R130) -/

/-- A well-formed operation answers: the slot index of a LOAD or a SAVE selects a slot, and every other operation is a function. -/
theorem exec_of_wellFormed {i : Instr} (h : i.wellFormed = true) (s : State) : ∃ t, exec i s = .next t := by
  cases i with
  | load b =>
    obtain ⟨k, hk⟩ := (slotInRange_iff b).mp h
    exact ⟨_, exec_load hk s⟩
  | save b =>
    obtain ⟨k, hk⟩ := (slotInRange_iff b).mp h
    exact ⟨_, exec_save hk s⟩
  | _ => exact ⟨_, rfl⟩

/-- Settles O12. -/
theorem wellFormedOperationsComplete : Obligations.WellFormedOperationsComplete := fun _ s h => exec_of_wellFormed h s

theorem execAll_of_wellFormed {is : List Instr} (h : ∀ i ∈ is, i.wellFormed = true) (s : State) :
    ∃ t, execAll is s = .next t := by
  induction is generalizing s with
  | nil => exact ⟨s, rfl⟩
  | cons i is ih =>
    obtain ⟨u, hu⟩ := exec_of_wellFormed (h i List.mem_cons_self) s
    obtain ⟨t, ht⟩ := ih (fun j hj => h j (List.mem_cons_of_mem _ hj)) u
    exact ⟨t, by rw [execAll_cons, hu, andThen_next, ht]⟩

/-! ### The store outside RESET, TOGGLEEDIT and POLL.DOUBLECLICKED (`60_exceptions.md` R145) -/

theorem deliver_nvm_of_ne_toggleEdit {e : CoreEvent} (h : e ≠ .toggleEdit) (s : State) : (deliver e s).nvm = s.nvm :=
  send_nvm (e := some e) (mt Option.some.inj h) s

/-- Of the operations the environment can present, RESET, TOGGLEEDIT and POLL.DOUBLECLICKED alone write the store. -/
theorem exec_nvm {i : Instr} (hi : isMicro i = false)
    (hstore : i ≠ .reset ∧ i ≠ .toggleEdit ∧ ∀ auxN delta, i ≠ .pollDoubleClicked auxN delta) {s t : State}
    (h : exec i s = .next t) : t.nvm = s.nvm := by
  obtain ⟨hreset, htoggle, hdouble⟩ := hstore
  rcases instr_context i with rfl | rfl | hm | hc | hp
  · cases h; exact tick_nvm s
  · exact absurd rfl hreset
  · simp [hi] at hm
  · obtain ⟨e, rfl⟩ := (isCore_iff i).mp hc
    rw [exec_coreInstr] at h; cases h
    exact deliver_nvm_of_ne_toggleEdit (fun he => htoggle (congrArg CoreEvent.instr he)) s
  · obtain ⟨btn, auxN, delta, rfl⟩ := (isPoll_iff i).mp hp
    rw [exec_pollInstr] at h; cases h
    exact poll_nvm_of_ne_doubleClicked (fun hb => hdouble auxN delta (by rw [hb]; rfl)) auxN delta s

/-! ### Every step answers (`10_state.md` R13, `44_valuestore.md` R123) -/

/-- A store word alone carries the reserved slot index (`30_encoding.md` R54). -/
theorem eq_storeWord_of_decode_reservedSlot {f : Frame} (h : decode f = .reservedSlot) : ∃ w, f = .s w := by
  cases f with
  | s w => exact ⟨w, rfl⟩
  | t w => simp only [decode, decodeT] at h; split at h <;> cases h
  | r w => simp only [decode, decodeR] at h; split at h <;> cases h
  | e w => simp only [decode] at h; unfold decodeE at h; split at h <;> cases h
  | p w => obtain ⟨i, hi⟩ := decodeP_operation w; rw [hi] at h; cases h

/-- No stimulus presents a store word (`30_encoding.md` R54). -/
theorem storeWord_not_mem_stimulusFrames (x : Stimulus) (w : BitVec 3) : .s w ∉ stimulusFrames x := fun hf => by
  cases x with
  | cycle pins => rcases mem_cycleFrames hf with h | h | h <;> cases h
  | _ => simp [stimulusFrames] at hf

/-- Words without a reserved slot index are the operations they select, applied in order: a word that selects none changes
nothing. -/
theorem applyFrames_eq_execAll {fs : List Frame} (h : ∀ f ∈ fs, decode f ≠ .reservedSlot) (s : State) :
    applyFrames fs s = execAll (fs.filterMap fun f => (decode f).instr?) s := by
  induction fs generalizing s with
  | nil => rfl
  | cons f fs ih =>
    have htail := ih fun g hg => h g (List.mem_cons_of_mem _ hg)
    rw [applyFrames_cons]
    cases hd : decode f with
    | operation i =>
      rw [applyFrame_of_operation hd, List.filterMap_cons_some (b := i) (by rw [hd]; rfl), execAll_cons, funext htail]
    | noOperation => rw [applyFrame_of_noOperation hd, List.filterMap_cons_none (by rw [hd]; rfl), andThen_next, htail]
    | reservedSlot => exact absurd hd (h f List.mem_cons_self)

/-- A word that selects an operation decodes to it. -/
theorem eq_operation_of_instr? {d : Decoded} {i : Instr} (h : d.instr? = some i) : d = .operation i := by
  cases d with
  | operation j => cases h; rfl
  | noOperation | reservedSlot => cases h

/-- With no store word placed, a step is operations other than LOAD and SAVE on the rest of the stimuli. -/
theorem step_eq_execAll {s : State} (hp : s.placed = none) :
    ∃ is, (∀ i ∈ is, isMicro i = false) ∧ step s = execAll is { s with inputs := s.inputs.tail } := by
  cases hx : s.inputs with
  | nil =>
    refine ⟨[], by simp, (step_of_nil hp hx).trans ?_⟩
    rw [execAll_nil, List.tail_nil, ← hx]
  | cons x rest =>
    have hreserved : ∀ f ∈ stimulusFrames x, decode f ≠ .reservedSlot := fun f hf hd => by
      obtain ⟨w, rfl⟩ := eq_storeWord_of_decode_reservedSlot hd
      exact storeWord_not_mem_stimulusFrames x w hf
    refine ⟨_, fun i hi => ?_, (step_of_cons hp hx).trans (applyFrames_eq_execAll hreserved _)⟩
    obtain ⟨f, hf, hd⟩ := List.mem_filterMap.mp hi
    exact stimulus_not_micro hf (eq_operation_of_instr? hd)

/-- With no store word placed, a step answers, because the operations it applies are well formed. -/
theorem step_eq_next_of_placed_none {s : State} (hp : s.placed = none) :
    ∃ t is, step s = .next t ∧ execAll is { s with inputs := s.inputs.tail } = .next t ∧ ∀ i ∈ is, isMicro i = false := by
  obtain ⟨is, hmicro, hstep⟩ := step_eq_execAll hp
  obtain ⟨t, ht⟩ := execAll_of_wellFormed (fun i hi => wellFormed_of_not_micro (hmicro i hi)) _
  exact ⟨t, is, hstep.trans ht, ht, hmicro⟩

/-- With no store word placed, a run of any length goes on, since each step answers and places none. -/
theorem run_of_placed_none (n : Nat) {s : State} (hp : s.placed = none) :
    ∃ t, Host.Core.run Sys2Proof.core n s = .next t ∧ t.placed = none := by
  induction n generalizing s with
  | zero => exact ⟨s, rfl, hp⟩
  | succ n ih =>
    obtain ⟨u, -, hs, -⟩ := step_eq_next_of_placed_none hp
    obtain ⟨t, ht, htp⟩ := ih (step_placed_none hp hs)
    refine ⟨t, ?_, htp⟩
    rw [run_succ, hs]
    exact ht

/-- Settles O14: a step is operations that all answer, and each keeps the store where it is none of the three that write it. -/
theorem everyRunGoesOn : Obligations.EveryRunGoesOn := by
  refine ⟨fun s hp => ?_, fun n s => run_of_placed_none n, rfl⟩
  obtain ⟨t, is, hs, ht, hmicro⟩ := step_eq_next_of_placed_none hp
  refine ⟨t, is, hs, step_placed_none hp hs, ht, hmicro, fun hstore => ?_⟩
  refine execAll_keeps (P := fun u => u.nvm = s.nvm) (s := { s with inputs := s.inputs.tail }) (fun i hi u v hu h => ?_)
    rfl ht
  exact (exec_nvm (hmicro i hi) (hstore i hi) h).trans hu

/-! ### What is ignored (`60_exceptions.md` R133) -/

theorem Mode.next_ne (m : Mode) : m.next ≠ m := by cases m <;> decide

/-- TOGGLEEDIT is accepted where the edit sub-machine has a move (`42_edit_events.md` R94, D16). -/
theorem accepts_toggleEdit_eq (s : State) : accepts .toggleEdit s = (editMove s.runState s.mode).isSome := by
  unfold accepts
  generalize s.runState = rs
  generalize s.mode = m
  cases rs <;> cases m <;> rfl

/-- No move of the edit sub-machine leads back to its RunState. -/
theorem editMove_ne {rs rs' : RunState} {m : Mode} {slots : List Index} (h : editMove rs m = some (rs', slots)) :
    rs' ≠ rs := by
  cases rs <;> cases m <;> cases h <;> decide

/-- A core event whose guard is false is ignored. -/
theorem deliver_of_not_accepted {e : CoreEvent} {s : State} (h : accepts e s = false) : deliver e s = s := by
  cases e with
  | start => exact startSequence_of_not_viewing h
  | stop => exact stopSequence_of_ignored fun ⟨hp, hm⟩ => by simp [accepts, hp, hm] at h
  | cycleMode => exact cycleMode_of_pulsing (by simpa [accepts] using h)
  | toggleEdit =>
    rw [accepts_toggleEdit_eq, Option.isSome_eq_false_iff, Option.isNone_iff_eq_none] at h
    rw [deliver, toggleEdit, h]
  | adjustValue delta => exact adjust_of_not_editing h delta

/-- A core event whose guard holds, other than an ADJUST, moves RunState or Mode. -/
theorem deliver_ne_of_accepted {e : CoreEvent} {s : State} (h : accepts e s = true) (he : ∀ delta, e ≠ .adjustValue delta) :
    deliver e s ≠ s := fun hsame => by
  have hrun : (deliver e s).runState = s.runState := congrArg State.runState hsame
  cases e with
  | start =>
    have hv : s.runState.viewing = true := h
    rw [deliver, startSequence_of_viewing hv] at hrun
    rw [← hrun] at hv
    cases hv
  | stop =>
    obtain ⟨hp, hm⟩ : s.runState.pulsing = true ∧ s.mode = .continuous := by simpa [accepts] using h
    rw [deliver, stopSequence_of_continuous hp hm] at hrun
    rw [← hrun] at hp
    cases hp
  | cycleMode =>
    have hmode : (cycleMode s).mode = s.mode := congrArg State.mode hsame
    rw [cycleMode_of_not_pulsing (by simpa [accepts] using h)] at hmode
    exact s.mode.next_ne hmode
  | toggleEdit =>
    rw [accepts_toggleEdit_eq, Option.isSome_iff_exists] at h
    obtain ⟨⟨rs, slots⟩, hmove⟩ := h
    rw [deliver, toggleEdit_of_editMove hmove] at hrun
    exact editMove_ne hmove hrun
  | adjustValue delta => exact he delta rfl

/-- A turn leaves a Duration exactly where the clamped sum is the Duration. -/
theorem adjusted_eq_self_iff (x delta : Word) :
    adjusted x delta = x ↔ clamp ((x.toNat : Int) + delta.toInt) 1 65535 = x.toNat := by
  rw [← adjusted_toNat, Int.natCast_inj, BitVec.toNat_inj]

/-- An ADJUST leaves the state exactly where it leaves the edited Duration. -/
theorem adjust_eq_self_iff {s : State} {k : Index} (h : s.runState.editIndex? = some k) (delta : Word) :
    adjust delta s = s ↔ adjusted (s.duration k) delta = s.duration k := by
  constructor
  · intro hs
    rw [← adjust_duration_same h, hs]
  · intro hd
    rw [adjust_of_editIndex h, hd, State.setDuration_self]

/-- Settles O58: the five guards case by case, and for ADJUST the one Duration it writes. -/
theorem ignoredExactlyWhenNotAccepted : Obligations.IgnoredExactlyWhenNotAccepted := by
  intro e s
  simp only [exec_coreInstr, ne_eq, Host.Outcome.next.injEq]
  refine ⟨deliver_of_not_accepted, deliver_ne_of_accepted, ?_⟩
  rintro delta rfl h
  obtain ⟨k, hk⟩ := Option.isSome_iff_exists.mp (s.runState.editIndex?_isSome.trans h)
  exact ⟨k, hk, (adjust_eq_self_iff hk delta).trans (adjusted_eq_self_iff _ delta)⟩

/-! ### Who writes what (`60_exceptions.md` R145) -/

/-- What an operation of the poll context leaves: what its core event does, or what its poll does. -/
theorem exec_event_eq_next {i : Instr} {s t : State} (hi : isCore i = true ∨ isPoll i = true) (h : exec i s = .next t) :
    (∃ e, i = CoreEvent.instr e ∧ t = deliver e s) ∨
      ∃ btn auxN delta, i = pollInstr btn auxN delta ∧ t = poll btn auxN delta s := by
  rcases hi with hi | hi
  · obtain ⟨e, rfl⟩ := (isCore_iff i).mp hi
    rw [exec_coreInstr] at h; cases h; exact .inl ⟨e, rfl, rfl⟩
  · obtain ⟨btn, auxN, delta, rfl⟩ := (isPoll_iff i).mp hi
    rw [exec_pollInstr] at h; cases h; exact .inr ⟨btn, auxN, delta, rfl, rfl⟩

theorem deliver_mode_of_ne_cycleMode {e : CoreEvent} (h : e ≠ .cycleMode) (s : State) : (deliver e s).mode = s.mode :=
  send_mode (e := some e) (mt Option.some.inj h) s

/-- The Durations are written by ADJUST alone. -/
theorem deliver_duration {e : CoreEvent} (h : ∀ delta, e ≠ .adjustValue delta) (s : State) (k : Index) :
    (deliver e s).duration k = s.duration k := by
  cases e with
  | start => exact startSequence_duration s k
  | stop => exact stopSequence_duration s k
  | cycleMode => exact cycleMode_duration s k
  | toggleEdit => exact toggleEdit_duration s k
  | adjustValue delta => exact absurd rfl (h delta)

/-- A core event leaves the counters or zeroes them all (`10_state.md` R12). -/
theorem deliver_counter (e : CoreEvent) (s : State) :
    (∀ k, (deliver e s).counter k = s.counter k) ∨ ∀ k, (deliver e s).counter k = 0#16 := by
  cases e with
  | start =>
    rcases startSequence_cases s with ⟨-, h⟩ | ⟨-, h⟩ <;> rw [deliver, h]
    · exact .inr fun k => by cases k <;> rfl
    · exact .inl fun _ => rfl
  | stop => rw [deliver, stopSequence_frame s]; exact .inl fun k => by cases k <;> rfl
  | cycleMode => rw [deliver, cycleMode_frame s]; exact .inl fun k => by cases k <;> rfl
  | toggleEdit => rw [deliver, toggleEdit_frame s]; exact .inl fun k => by cases k <;> rfl
  | adjustValue delta => rw [deliver, adjust_frame delta s]; exact .inl fun k => by cases k <;> rfl

/-- A poll leaves the counters or zeroes them all, as each event it sends does. -/
theorem poll_counter (btn : Button) (auxN : Bool) (delta : Word) (s : State) :
    (∀ k, (poll btn auxN delta s).counter k = s.counter k) ∨ ∀ k, (poll btn auxN delta s).counter k = 0#16 := by
  refine poll_keeps (P := fun u => (∀ k, u.counter k = s.counter k) ∨ ∀ k, u.counter k = 0#16) (fun e u hu => ?_)
    (fun _ _ hu => hu) (fun _ _ hu => hu) btn auxN delta (.inl fun _ => rfl)
  rcases deliver_counter e u with h | h
  · exact hu.imp (fun hu k => (h k).trans (hu k)) (fun hu k => (h k).trans (hu k))
  · exact .inr h

theorem buttonEvent_ne_cycleMode_of_ne_held {btn : Button} (h : btn ≠ .held) (s : State) :
    buttonEvent btn s ≠ some .cycleMode := fun he => by
  obtain ⟨hb, -, -⟩ | ⟨-, hclick⟩ | ⟨-, ht⟩ := buttonEvent_cases he
  · exact h hb
  · simpa using (clickEvent_accepted hclick).2
  · cases ht

/-- Of the polls, POLL.HELD alone writes Mode. -/
theorem poll_mode_of_ne_held {btn : Button} (h : btn ≠ .held) (auxN : Bool) (delta : Word) (s : State) :
    (poll btn auxN delta s).mode = s.mode :=
  calc (poll btn auxN delta s).mode
    _ = (buttonStep btn (rotationStep delta s)).mode := (auxStep_sameSettings _ auxN).1
    _ = (rotationStep delta s).mode := send_mode (buttonEvent_ne_cycleMode_of_ne_held h _) _
    _ = s.mode := rotationStep_mode delta s

/-- Held and Released alone write `lp_handled` (`43_input_mux.md` R106, R107). -/
theorem held_or_released_of_lpAfter_ne {btn : Button} {lp : Bool} (h : lpAfter btn lp ≠ lp) :
    btn = .held ∨ btn = .released := by
  cases btn with
  | held => exact .inl rfl
  | released => exact .inr rfl
  | opened | closed | pressed | clicked | doubleClicked => exact absurd rfl h

/-- Settles O59: each field by the one core event that writes it, and by the one button event that sends it. -/
theorem whoWritesWhat : Obligations.WhoWritesWhat := by
  intro i s t hi h
  obtain ⟨e, rfl, rfl⟩ | ⟨btn, auxN, delta, rfl, rfl⟩ := exec_event_eq_next hi h
  · obtain ⟨hlevel, hlp, haux, hinputs, hplaced⟩ := deliver_frame e s
    refine ⟨hlevel, deliver_counter e s, fun hmode => .inl ?mode, fun ⟨k, hk⟩ => .inl ?duration,
      fun hne => absurd hlp hne, fun hne => absurd haux hne, fun hnvm => .inl ?store, hinputs, hplaced⟩
    case mode => exact congrArg CoreEvent.instr (of_not_not fun he => hmode (deliver_mode_of_ne_cycleMode he s))
    case duration =>
      obtain ⟨delta, rfl⟩ : ∃ delta, e = .adjustValue delta :=
        of_not_not fun he => hk (deliver_duration (not_exists.mp he) s k)
      exact ⟨delta, rfl⟩
    case store => exact congrArg CoreEvent.instr (of_not_not fun he => hnvm (deliver_nvm_of_ne_toggleEdit he s))
  · have hpoll : isPoll (pollInstr btn auxN delta) = true := (isPoll_iff _).mpr ⟨btn, auxN, delta, rfl⟩
    obtain ⟨hlevel, hlp, -, hinputs, hplaced⟩ := poll_frame btn auxN delta s
    refine ⟨hlevel, poll_counter btn auxN delta s, fun hmode => .inr ⟨auxN, delta, ?mode⟩, fun _ => .inr hpoll,
      fun hne => ⟨auxN, delta, ?detector⟩, fun _ => hpoll, fun hnvm => .inr ⟨auxN, delta, ?store⟩, hinputs, hplaced⟩
    case mode =>
      obtain rfl : btn = .held := of_not_not fun hb => hmode (poll_mode_of_ne_held hb auxN delta s)
      rfl
    case detector =>
      rw [hlp] at hne
      obtain rfl | rfl := held_or_released_of_lpAfter_ne hne
      · exact .inl rfl
      · exact .inr rfl
    case store =>
      obtain rfl : btn = .doubleClicked := of_not_not fun hb => hnvm (poll_nvm_of_ne_doubleClicked hb auxN delta s)
      rfl

/-! ### What survives a RESET (`60_exceptions.md` R152) -/

/-- What a LOAD leaves in the store depends on the store alone. -/
theorem State.loadSlot_nvm (s : State) (k : Index) :
    (s.loadSlot k).nvm = if memRead s.nvm k = 0#16 then memWrite s.nvm k k.default else s.nvm := by
  by_cases h : memRead s.nvm k = 0#16
  · rw [if_pos h, State.loadSlot_of_eq_zero h]
  · rw [if_neg h, State.loadSlot_nvm_of_ne_zero h]

/-- What a RESET leaves in the store depends on the store alone. -/
theorem resetAll_nvm_eq {s u : State} (h : s.nvm = u.nvm) : (resetAll s).nvm = (resetAll u).nvm := by
  have hclear : (clearRegisters s).nvm = (clearRegisters u).nvm := h
  simp only [resetAll, State.loadSlot_nvm, hclear]

/-- What a RESET leaves: the reset values, the Durations by their slots, the store it wrote, and the model's own two fields. -/
theorem resetAll_eq (s : State) :
    resetAll s = { State.reset with
      pulse1 := if memRead s.nvm .first = 0#16 then Index.default .first else memRead s.nvm .first
      pulse2 := if memRead s.nvm .second = 0#16 then Index.default .second else memRead s.nvm .second
      idle := if memRead s.nvm .idle = 0#16 then Index.default .idle else memRead s.nvm .idle
      nvm := (resetAll s).nvm, inputs := s.inputs, placed := s.placed } := by
  have hfirst : (resetAll s).pulse1 = _ := resetAll_duration s .first
  have hsecond : (resetAll s).pulse2 = _ := resetAll_duration s .second
  have hidle : (resetAll s).idle = _ := resetAll_duration s .idle
  rw [← hfirst, ← hsecond, ← hidle]
  ext1 <;> simp [resetAll, clearRegisters, State.reset]

/-- Settles O53: every field RESET leaves is a constant, read from the store, or one of the model's own. -/
theorem onlyTheStoreSurvivesReset : Obligations.OnlyTheStoreSurvivesReset := by
  intro s u hnvm hinputs hplaced
  rw [exec_reset, exec_reset, resetAll_eq s, resetAll_eq u, resetAll_nvm_eq hnvm, hnvm, hinputs, hplaced]

/-! ### What can be observed (`60_exceptions.md` R150, R151; `10_state.md` R16) -/

/-- Two Modes have the same code only if they are the same: the code is read back (`30_encoding.md` R45). -/
theorem Mode.code_inj {m n : Mode} : m.code = n.code ↔ m = n :=
  ⟨fun h => Option.some.inj <| ((Mode.ofCode?_eq_some_iff _ m).mpr rfl).symm.trans
    ((Mode.ofCode?_eq_some_iff _ n).mpr h.symm), congrArg Mode.code⟩

/-- Two RunStates have the same code only if they are the same: the code is read back (`30_encoding.md` R46). -/
theorem RunState.code_inj {r q : RunState} : r.code = q.code ↔ r = q :=
  ⟨fun h => Option.some.inj <| ((RunState.ofCode?_eq_some_iff _ r).mpr rfl).symm.trans
    ((RunState.ofCode?_eq_some_iff _ q).mpr h.symm), congrArg RunState.code⟩

theorem State.snapshot_eq_iff (s u : State) : s.snapshot = u.snapshot ↔
    s.mode = u.mode ∧ s.runState = u.runState ∧ s.pulse1 = u.pulse1 ∧ s.pulse2 = u.pulse2 ∧ s.idle = u.idle := by
  simp only [State.snapshot, Snapshot.mk.injEq, Mode.code_inj, RunState.code_inj]

theorem Level.bit_eq_one_iff (l : Level) : l.bit = 1#1 ↔ l = .high := by cases l <;> decide

/-- The kind of screen is decided by the three predicates over RunState and the edited index. -/
theorem RunState.screen_iff (rs : RunState) :
    (rs.screen = .pulsing ↔ rs.pulsing = true) ∧ (rs.screen = .view ↔ rs.viewing = true) ∧
      ∀ k, rs.screen = .edit k ↔ rs.editIndex? = some k := by
  cases rs <;> exact ⟨by decide, by decide, fun k => by cases k <;> decide⟩

/-- Settles O60: the ports carry the codes and the Durations, and the codes tell the values apart. -/
theorem whatCanBeObserved : Obligations.WhatCanBeObserved :=
  ⟨fun s => ⟨by cases hm : s.mode <;> simp [State.snapshot, hm, Mode.code],
      by cases hr : s.runState <;> simp [State.snapshot, hr, RunState.code], rfl, rfl, rfl⟩,
    State.snapshot_eq_iff, fun s => s.outputLevel.bit_eq_one_iff, RunState.screen_iff⟩

end Sys2Proof.Machine
end

section
/-! SUPPORT. RESET as a whole (`70_reset_and_hazards.md` R156): its LOADs, the slots it leaves beside the Durations, and what the
first poll after it does with a switch or a button held down (R159, R177). -/

namespace Sys2Proof.Machine

/-! ### The slots after RESET (`10_state.md` R25, `44_valuestore.md` R123) -/

/-- A slot that agrees with its register goes on agreeing over a LOAD of any slot. -/
theorem State.loadSlot_memRead_of_eq_duration {s : State} (hw : Memory.wf s.nvm) {j : Index}
    (h : memRead s.nvm j = s.duration j) (k : Index) : memRead (s.loadSlot k).nvm j = (s.loadSlot k).duration j := by
  by_cases e : j = k
  · rw [e]; exact State.loadSlot_memRead_same hw k
  · rw [s.loadSlot_memRead_other e, s.loadSlot_duration_other e, h]

/-- After RESET each slot holds its Duration: its own LOAD makes it so, and the LOADs after that keep it so. -/
theorem resetAll_memRead {s : State} (hw : Memory.wf s.nvm) (k : Index) :
    memRead (resetAll s).nvm k = (resetAll s).duration k := by
  have hfirst : Memory.wf ((clearRegisters s).loadSlot .first).nvm := State.loadSlot_wf (s := clearRegisters s) hw .first
  have hsecond := State.loadSlot_wf hfirst .second
  cases k with
  | first =>
    have h := State.loadSlot_memRead_same (s := clearRegisters s) hw .first
    exact State.loadSlot_memRead_of_eq_duration hsecond (State.loadSlot_memRead_of_eq_duration hfirst h .second) .idle
  | second =>
    exact State.loadSlot_memRead_of_eq_duration hsecond (State.loadSlot_memRead_same hfirst .second) .idle
  | idle => exact State.loadSlot_memRead_same hsecond .idle

/-- A slot's value determines its two bytes. -/
theorem read_eq_of_memRead_eq {m n : Memory} {k : Index} (h : memRead m k = memRead n k) :
    Memory.read m (lowAddr k) = Memory.read n (lowAddr k) ∧ Memory.read m (highAddr k) = Memory.read n (highAddr k) := by
  have hvalue := congrArg BitVec.toNat h
  rw [memRead_toNat, memRead_toNat] at hvalue
  have hm := (Memory.read m (lowAddr k)).isLt
  have hn := (Memory.read n (lowAddr k)).isLt
  exact ⟨BitVec.eq_of_toNat_eq (by omega), BitVec.eq_of_toNat_eq (by omega)⟩

/-- After its register writes RESET is LOAD 0, LOAD 1, LOAD 2. -/
theorem execAll_loads_clearRegisters (s : State) :
    execAll [.load 0#2, .load 1#2, .load 2#2] (clearRegisters s) = .next (resetAll s) := by
  simp only [execAll_cons, execAll_nil, andThen_next, exec_load (b := 0#2) (k := .first) rfl,
    exec_load (b := 1#2) (k := .second) rfl, exec_load (b := 2#2) (k := .idle) rfl, resetAll]

/-- Settles O52: the registers by `resetAll_eq`; a slot that held a value other than 0 holds it still, so both its bytes do. -/
theorem resetResult : Obligations.ResetResult := fun s hw =>
  ⟨resetAll s, exec_reset s, resetAll_eq s, execAll_loads_clearRegisters s, resetAll_memRead hw,
    fun _ h => read_eq_of_memRead_eq (resetAll_memRead_of_ne_zero h)⟩

/-! ### The first poll after RESET (`70_reset_and_hazards.md` R159, R177) -/

@[simp] theorem resetAll_lpHandled (s : State) : (resetAll s).lpHandled = false := by rw [resetAll_eq]; rfl

@[simp] theorem resetAll_auxPrev (s : State) : (resetAll s).auxPrev = false := by rw [resetAll_eq]; rfl

/-- The counters are 0 after RESET already. -/
@[simp] theorem resetAll_zeroCounters (s : State) : (resetAll s).zeroCounters = resetAll s := by rw [resetAll_eq]; rfl

/-- In a View state a switch found newly pressed starts a sequence. -/
theorem poll_opened_press_of_viewing {s : State} (hv : s.runState.viewing = true) (haux : s.auxPrev = false) :
    poll .opened false 0#16 s = { s.zeroCounters with runState := .pulseFirst, auxPrev := true } := by
  rw [poll, rotationStep_zero, buttonStep_opened, auxStep_of_press ⟨rfl, haux⟩, clickEvent_of_viewing hv]
  exact startSequence_of_viewing (s := { s with auxPrev := true }) hv

/-- In a View state that matches Mode the first Held of a hold, with the switch released, steps to the next Mode. -/
theorem poll_held_first_of_view {s : State} (hr : s.runState = s.mode.view) (hlp : s.lpHandled = false) :
    poll .held true 0#16 s =
      { s with runState := s.mode.next.view, mode := s.mode.next, lpHandled := true, auxPrev := false } := by
  rw [poll, rotationStep_zero, buttonStep_held_first hlp, cycleMode_of_view (s := { s with lpHandled := true }) hr,
    auxStep_of_no_press (by simp)]
  rfl

/-- Settles O45: RESET leaves both detectors clear in ViewOnce, so the switch reads as newly pressed and the hold as new. -/
theorem inputsAtFirstPollAfterReset : Obligations.InputsAtFirstPollAfterReset := by
  refine fun s => ⟨resetAll s, exec_reset s, ?switch, ?button⟩
  case switch =>
    have hv : (resetAll s).runState.viewing = true := by rw [resetAll_runState]; rfl
    simp only [execAll_cons, execAll_nil, exec_reset, exec_pollOpen, andThen_next,
      poll_opened_press_of_viewing hv (resetAll_auxPrev s), resetAll_zeroCounters]
  case button =>
    have hr : (resetAll s).runState = (resetAll s).mode.view := by rw [resetAll_runState, resetAll_mode]; rfl
    simp only [execAll_cons, execAll_nil, exec_reset, exec_pollHeld, andThen_next,
      poll_held_first_of_view hr (resetAll_lpHandled s), resetAll_mode, resetAll_auxPrev, Mode.next, Mode.view]

end Sys2Proof.Machine
end
